-- ==== Sys2Proof/Word.lean ====
section
/-!
DEFINITION. Word.lean: the one kind of value of the machine, and the range a realisation may put on it.

Every value (the content of a memory cell, an address, PC, RB, a queue entry) is a mathematical integer, signed, with no
width (00_scope.md R5, the spec's decision D2; 41_arithmetic.md R102): Lean's Int. Any integer is an address, negative ones
included (20_memory.md R44). Nothing in the machine is a bit vector: no rule looks at bits, so there is no wrapping
arithmetic and no byte order (20_memory.md R41).
-/

namespace Sys2Proof

/-- The parameter CELL_RANGE of 00_scope.md R4: the integers a cell, an address, PC, RB or a queue entry can hold. -/
inductive CellRange where
  /-- All of the integers: the value for this hardware (the spec's decision D2). -/
  | all
  /-- A finite interval, both ends included: a realisation with fixed-width cells (41_arithmetic.md R103). -/
  | between (lo hi : Int)
  deriving DecidableEq, Repr

end Sys2Proof
end

