-- ==== Sys2Proof/Config.lean ====
section
/-!
DEFINITION. Config.lean: the parameters of 00_scope.md R4. They are arguments of the model, not state. The memory image is
the argument of State.resetWith; the queues have no capacity (the spec's decision D10), so no depth stands here.
-/

namespace Sys2Proof

/-- CELL_RANGE of this hardware: all of the integers (00_scope.md R4; log entry 2). -/
abbrev Config.cellRange : CellRange := .all

/-- What a cell that nothing has written holds: 0 (20_memory.md R42, 10_state.md R18). -/
abbrev Config.unlistedCell : Int := 0

/-- The reset vector: address 0 (00_scope.md R4). -/
abbrev Config.resetVector : Int := 0

end Sys2Proof
end

