-- ==== Sys2Proof/Syntax/Fields.lean ====
section
/-!
DEFINITION. Syntax/Fields.lean: the closed sets of names the encoding is made of (opcodes, parameter modes, decimal fields of
an instruction word) and the causes of a fatal condition.
-/

namespace Sys2Proof

/-- A parameter mode (30_encoding.md R64). -/
inductive Mode where
  /-- Mode digit 0: the raw operand is an address (40_cycle_and_operands.md R84). -/
  | position
  /-- Mode digit 1: the raw operand is the value (R85). -/
  | immediate
  /-- Mode digit 2: the raw operand plus RB is an address (R86). -/
  | relative
  deriving DecidableEq, Repr

/-- The ten opcodes of 30_encoding.md R63, under the spec's mnemonics. -/
inductive Opcode where
  | add | mul | inp | out | jt | jf | lt | eq | arb | halt
  deriving DecidableEq, Repr

/-- The decimal fields of an instruction word in 0..99999, before anything is checked (30_encoding.md R61). -/
structure Fields where
  /-- The ten-thousands digit. -/
  mode3 : Nat
  /-- The thousands digit. -/
  mode2 : Nat
  /-- The hundreds digit. -/
  mode1 : Nat
  /-- The tens and units digits together. -/
  opcode : Nat
  deriving DecidableEq, Repr

/-- The causes of a fatal condition (60_exceptions.md R165). -/
inductive Cause where
  /-- Code 1, raised by the decoder: the opcode field names no instruction (R161). -/
  | unknownOpcode
  /-- Code 2, raised by the decoder: a mode digit is 3 or more (R162). -/
  | badMode
  /-- Code 3, raised by the decoder: the word is negative or above 99999 (R163). -/
  | wordRange
  /-- Code 4, raised by IN on an empty input queue (R164). -/
  | inputStarvation
  /-- Code 5, raised only with a finite CELL_RANGE: a value or an address leaves it (41_arithmetic.md R103). -/
  | cellRange
  deriving DecidableEq, Repr

end Sys2Proof
end

