-- ==== Sys2Proof/Syntax.lean ====
section
/-!
DEFINITION. Syntax.lean: the instructions, one constructor per row of spec/opcode_table.json.

An instruction is what the decoder of 30_encoding.md R68 returns: the opcode with its three mode digits. The digits of
parameters the opcode does not have are kept (a legal word may hold 0, 1 or 2 there, R64), so that each of the 270 legal
words is one instruction and no digit is lost. The raw operands are not part of the word: they are cells of memory, read
when a parameter is resolved (30_encoding.md R60, 40_cycle_and_operands.md R83).
-/

namespace Sys2Proof

/-- The ten instructions (30_encoding.md R63); `mK` is the mode of parameter K. -/
inductive Instr where
  /-- ADD, opcode 1 (41_arithmetic.md R100). -/
  | add (m1 m2 m3 : Mode)
  /-- MUL, opcode 2 (41_arithmetic.md R101). -/
  | mul (m1 m2 m3 : Mode)
  /-- IN, opcode 3 (42_input_output.md R110); m2 and m3 belong to no parameter. -/
  | inp (m1 m2 m3 : Mode)
  /-- OUT, opcode 4 (42_input_output.md R111); m2 and m3 belong to no parameter. -/
  | out (m1 m2 m3 : Mode)
  /-- JT, opcode 5 (43_jumps.md R120); m3 belongs to no parameter. -/
  | jt (m1 m2 m3 : Mode)
  /-- JF, opcode 6 (43_jumps.md R121); m3 belongs to no parameter. -/
  | jf (m1 m2 m3 : Mode)
  /-- LT, opcode 7 (44_compare.md R130). -/
  | lt (m1 m2 m3 : Mode)
  /-- EQ, opcode 8 (44_compare.md R131). -/
  | eq (m1 m2 m3 : Mode)
  /-- ARB, opcode 9 (45_relative_base.md R140); m2 and m3 belong to no parameter. -/
  | arb (m1 m2 m3 : Mode)
  /-- HALT, opcode 99 (46_halt.md R150); no mode belongs to a parameter. -/
  | halt (m1 m2 m3 : Mode)
  deriving DecidableEq, Repr

end Sys2Proof
end

