-- ==== Sys2Proof/Syntax/Asm.lean ====
section
/-!
DEFINITION. Syntax/Asm.lean: the assembler notation of 30_encoding.md R69 as data. It is notation only (the machine sees
integers); Decode.lean says which cells a line assembles to and how it is written.
-/

namespace Sys2Proof

/-- An operand: `n` is position, `#n` immediate, `@n` relative, each with raw operand n (30_encoding.md R69). -/
structure AsmOperand where
  mode : Mode
  raw  : Int
  deriving DecidableEq, Repr

/-- One line of a listing (30_encoding.md R69). -/
inductive AsmLine where
  /-- A mnemonic and its operands in parameter order. -/
  | instr (op : Opcode) (operands : List AsmOperand)
  /-- DATA: the integers as they stand. -/
  | data (values : List Int)
  deriving DecidableEq, Repr

end Sys2Proof
end

