-- ==== Sys2Proof/WellFormed.lean ====
section
/-!
DEFINITION. WellFormed.lean: the checks on syntax. An Instr is well formed by its type (its modes are modes and its
constructor an opcode); what can be ill formed is a set of decimal fields, an instruction that should be canonical, an
assembler line and a finite cell range.
-/

namespace Sys2Proof

/-- How many parameters an opcode has (30_encoding.md R63). -/
def Opcode.paramCount : Opcode → Nat
  | .add | .mul | .lt | .eq => 3
  | .jt | .jf => 2
  | .inp | .out | .arb => 1
  | .halt => 0

/-- The fields of a legal instruction word: one of the ten opcodes and three mode digits of at most 2, whether or not the
opcode has the parameter (30_encoding.md R63, R64). -/
def Fields.wf (f : Fields) : Bool :=
  [1, 2, 3, 4, 5, 6, 7, 8, 9, 99].contains f.opcode
    && decide (f.mode1 ≤ 2) && decide (f.mode2 ≤ 2) && decide (f.mode3 ≤ 2)

/-- The mode digits of parameters the opcode does not have are 0 (30_encoding.md R64, R71). -/
def Instr.canonical : Instr → Bool
  | .add _ _ _ | .mul _ _ _ | .lt _ _ _ | .eq _ _ _ => true
  | .jt _ _ m3 | .jf _ _ m3 => m3 == .position
  | .inp _ m2 m3 | .out _ m2 m3 | .arb _ m2 m3 => m2 == .position && m3 == .position
  | .halt m1 m2 m3 => m1 == .position && m2 == .position && m3 == .position

/-- A line gives its mnemonic as many operands as the opcode has parameters (30_encoding.md R69). -/
def AsmLine.wf : AsmLine → Bool
  | .instr op operands => operands.length == op.paramCount
  | .data _ => true

/-- A finite cell range has LO at most 0 and HI at least 0 (41_arithmetic.md R103). -/
def CellRange.wf : CellRange → Bool
  | .all => true
  | .between lo hi => decide (lo ≤ 0) && decide (0 ≤ hi)

end Sys2Proof
end

