-- ==== Sys2Proof/Decode.lean ====
section
/-!
DEFINITION. Decode.lean: the decode function of 30_encoding.md R68, total on every integer, the encoder written from the
same rules (R61, R63), the instruction lengths (R66) and the assembler (R69).
-/

namespace Sys2Proof

/-- The decimal digit of weight 10^k of a non-negative integer (00_scope.md R7). -/
def digit (w k : Nat) : Nat := w / 10 ^ k % 10

/-- The mode a mode digit names; 3 to 9 name none (30_encoding.md R64). -/
def Mode.ofDigit : Nat → Option Mode
  | 0 => some .position
  | 1 => some .immediate
  | 2 => some .relative
  | _ => none

/-- The digit of a mode (30_encoding.md R64). -/
def Mode.toDigit : Mode → Nat
  | .position => 0
  | .immediate => 1
  | .relative => 2

/-- The opcode an opcode field names; 0 and 10 to 98 name none (30_encoding.md R63). -/
def Opcode.ofField : Nat → Option Opcode
  | 1 => some .add
  | 2 => some .mul
  | 3 => some .inp
  | 4 => some .out
  | 5 => some .jt
  | 6 => some .jf
  | 7 => some .lt
  | 8 => some .eq
  | 9 => some .arb
  | 99 => some .halt
  | _ => none

/-- The number of an opcode (30_encoding.md R63). -/
def Opcode.number : Opcode → Nat
  | .add => 1
  | .mul => 2
  | .inp => 3
  | .out => 4
  | .jt => 5
  | .jf => 6
  | .lt => 7
  | .eq => 8
  | .arb => 9
  | .halt => 99

/-- How many cells an instruction occupies, fixed by the opcode alone (30_encoding.md R66). -/
def Opcode.length : Opcode → Nat
  | .halt => 1
  | .inp | .out | .arb => 2
  | .jt | .jf => 3
  | .add | .mul | .lt | .eq => 4

/-- The instruction of an opcode and its three modes. -/
def Opcode.instr (op : Opcode) (m1 m2 m3 : Mode) : Instr :=
  match op with
  | .add => .add m1 m2 m3
  | .mul => .mul m1 m2 m3
  | .inp => .inp m1 m2 m3
  | .out => .out m1 m2 m3
  | .jt => .jt m1 m2 m3
  | .jf => .jf m1 m2 m3
  | .lt => .lt m1 m2 m3
  | .eq => .eq m1 m2 m3
  | .arb => .arb m1 m2 m3
  | .halt => .halt m1 m2 m3

/-- The opcode of an instruction. -/
def Instr.opcode : Instr → Opcode
  | .add _ _ _ => .add
  | .mul _ _ _ => .mul
  | .inp _ _ _ => .inp
  | .out _ _ _ => .out
  | .jt _ _ _ => .jt
  | .jf _ _ _ => .jf
  | .lt _ _ _ => .lt
  | .eq _ _ _ => .eq
  | .arb _ _ _ => .arb
  | .halt _ _ _ => .halt

/-- The mode of parameter 1 of an instruction (of the hundreds digit, where there is no parameter). -/
def Instr.mode1 : Instr → Mode
  | .add m1 _ _ | .mul m1 _ _ | .inp m1 _ _ | .out m1 _ _ | .jt m1 _ _
  | .jf m1 _ _ | .lt m1 _ _ | .eq m1 _ _ | .arb m1 _ _ | .halt m1 _ _ => m1

/-- The decimal fields of a word in 0..99999 (30_encoding.md R61). -/
def fieldsOf (w : Nat) : Fields :=
  { mode3 := digit w 4, mode2 := digit w 3, mode1 := digit w 2, opcode := w % 100 }

/-- The checks of Decode on a word in range: the opcode first, then the three mode digits (30_encoding.md R68). -/
def decodeFields (f : Fields) : Except Cause Instr :=
  match Opcode.ofField f.opcode with
  | none => .error .unknownOpcode
  | some op =>
    match Mode.ofDigit f.mode1, Mode.ofDigit f.mode2, Mode.ofDigit f.mode3 with
    | some m1, some m2, some m3 => .ok (op.instr m1 m2 m3)
    | _, _, _ => .error .badMode

/-- Decode (30_encoding.md R68): the instruction a word stands for, or the cause that is raised (log entry 12). -/
def decode (w : Int) : Except Cause Instr :=
  if w < 0 ∨ 99999 < w then .error .wordRange else decodeFields (fieldsOf w.toNat)

/-- The decimal fields of an instruction (30_encoding.md R61, R64). -/
def Instr.fields : Instr → Fields
  | .add m1 m2 m3 => ⟨m3.toDigit, m2.toDigit, m1.toDigit, 1⟩
  | .mul m1 m2 m3 => ⟨m3.toDigit, m2.toDigit, m1.toDigit, 2⟩
  | .inp m1 m2 m3 => ⟨m3.toDigit, m2.toDigit, m1.toDigit, 3⟩
  | .out m1 m2 m3 => ⟨m3.toDigit, m2.toDigit, m1.toDigit, 4⟩
  | .jt m1 m2 m3 => ⟨m3.toDigit, m2.toDigit, m1.toDigit, 5⟩
  | .jf m1 m2 m3 => ⟨m3.toDigit, m2.toDigit, m1.toDigit, 6⟩
  | .lt m1 m2 m3 => ⟨m3.toDigit, m2.toDigit, m1.toDigit, 7⟩
  | .eq m1 m2 m3 => ⟨m3.toDigit, m2.toDigit, m1.toDigit, 8⟩
  | .arb m1 m2 m3 => ⟨m3.toDigit, m2.toDigit, m1.toDigit, 9⟩
  | .halt m1 m2 m3 => ⟨m3.toDigit, m2.toDigit, m1.toDigit, 99⟩

/-- w = 10000*mode3 + 1000*mode2 + 100*mode1 + opcode (30_encoding.md R61). -/
def Fields.word (f : Fields) : Nat :=
  10000 * f.mode3 + 1000 * f.mode2 + 100 * f.mode1 + f.opcode

/-- The instruction word of an instruction. -/
def encode (i : Instr) : Int := (i.fields.word : Int)

/-- The canonical word of an opcode with these operands: the modes in parameter order, absent ones 0 (30_encoding.md R64). -/
def asmWord (op : Opcode) (operands : List AsmOperand) : Int :=
  let modeDigit (k : Nat) : Nat := ((operands[k]?).map (fun p => p.mode.toDigit)).getD 0
  ((10000 * modeDigit 2 + 1000 * modeDigit 1 + 100 * modeDigit 0 + op.number : Nat) : Int)

/-- The cells a line assembles to (30_encoding.md R69): the canonical word and the raw operands, or the data. -/
def assemble : AsmLine → List Int
  | .instr op operands => asmWord op operands :: operands.map (·.raw)
  | .data values => values

/-- The assembler's name of an opcode (30_encoding.md R63, R69). -/
def Opcode.mnemonic : Opcode → String
  | .add => "ADD"
  | .mul => "MUL"
  | .inp => "IN"
  | .out => "OUT"
  | .jt => "JT"
  | .jf => "JF"
  | .lt => "LT"
  | .eq => "EQ"
  | .arb => "ARB"
  | .halt => "HALT"

/-- The source's name of an opcode, which the assembler takes as a synonym (30_encoding.md R63, R69). -/
def Opcode.sourceName : Opcode → String
  | .add => "ADD"
  | .mul => "MUL"
  | .inp => "INPUT"
  | .out => "OUTPUT"
  | .jt => "JUMP-IF-TRUE"
  | .jf => "JUMP-IF-FALSE"
  | .lt => "LESS-THAN"
  | .eq => "EQUALS"
  | .arb => "ADJUST-RELATIVE-BASE"
  | .halt => "HALT"

/-- An operand as it is written: n, #n or @n (30_encoding.md R69). -/
def asmOperandText (p : AsmOperand) : String :=
  match p.mode with
  | .position => toString p.raw
  | .immediate => "#" ++ toString p.raw
  | .relative => "@" ++ toString p.raw

/-- A line as it is written (30_encoding.md R69). -/
def asmText : AsmLine → String
  | .instr op [] => op.mnemonic
  | .instr op (p :: ps) => op.mnemonic ++ " " ++ ", ".intercalate ((p :: ps).map asmOperandText)
  | .data values => "DATA " ++ ", ".intercalate (values.map toString)

/-- The integer in the instruction cell when the opcode table's bits are w: bit 0 is the least significant bit of that
integer and every bit from nbits on is 0 (log entry 4). -/
def tableWord (nbits w : Nat) : Int := ((w % 2 ^ nbits : Nat) : Int)

/-- The instruction this decoder reads from an instruction word whose bits are w (log entry 4). -/
def decodeTableWord (nbits w : Nat) : Option Instr := (decode (tableWord nbits w)).toOption

end Sys2Proof
end

