-- ==== Sys2Proof/Machine/State.lean ====
section
/-!
DEFINITION. Machine/State.lean: the seven state components of 10_state.md R10 and no other, as plain data, the ways a step
can stop, and the state after reset.
-/

namespace Sys2Proof.Machine

/-- One listed cell: its address and its content. A cell holds one whole integer (20_memory.md R41; log entry 1). -/
abbrev MemCell := Int × Int

/-- M (10_state.md R18): the cells that do not hold 0, by rising address; every other cell holds 0 (log entry 1). -/
structure Memory where
  cells : List MemCell
  deriving DecidableEq, Repr

/-- The one form in which a memory is listed: addresses strictly rising, and no entry equal to what an unlisted cell holds. -/
abbrev Memory.wf (m : Memory) : Prop :=
  m.cells.Pairwise (fun c d => c.1 < d.1) ∧ ∀ c ∈ m.cells, c.2 ≠ Config.unlistedCell

/-- The cause record of 10_state.md R16. -/
structure FaultRecord where
  /-- The field `code`, as a name (60_exceptions.md R165). -/
  cause : Cause
  /-- M[PC], the whole instruction word of the faulting instruction. -/
  word : Int
  /-- `word mod 100` if 0 <= word <= 99999, otherwise `word` (the spec's decision D18). -/
  opcode : Int
  /-- PC at the fault. -/
  pc : Int
  /-- RB at the fault. -/
  rb : Int
  deriving DecidableEq, Repr

/-- The state of one machine instance: exactly the components of 10_state.md R10. -/
structure State where
  /-- PC, the program counter (10_state.md R12). -/
  pc : Int
  /-- RB, the relative base (R14). -/
  rb : Int
  /-- M, the memory array (R18). -/
  mem : Memory
  /-- HALTED, the halt flag (R15). -/
  halted : Bool
  /-- FAULT, none or the cause record (R16). -/
  fault : Option FaultRecord
  /-- INQ, the input queue, oldest entry first, without a capacity limit (R19; log entry 9). -/
  inq : List Int
  /-- OUTQ, the output queue, oldest entry first, without a capacity limit (R20; log entry 9). -/
  outq : List Int
  deriving DecidableEq, Repr

/-- STATUS (10_state.md R17). -/
inductive Status where
  | running | halted | faulted
  deriving DecidableEq, Repr

/-- Why `step` gives no next state: the machine has no step outside RUNNING (10_state.md R17, 40_cycle_and_operands.md R80).
A fatal condition itself is no `Fault`: the step that raises it answers the next state, with FAULT recorded (R91). -/
inductive Fault where
  /-- Raised by `step` alone, when STATUS = HALTED: the normal end of a run (46_halt.md R150). Safe: nothing is executed. -/
  | halted
  /-- Raised by `step` alone, when STATUS = FAULTED: the abnormal end of a run, with its cause record (60_exceptions.md R167,
  R178). Safe: nothing is executed. -/
  | faulted (record : FaultRecord)
  deriving DecidableEq, Repr

/-- Why an instruction has no meaning here. -/
inductive Refusal where
  /-- Raised by an arm of `exec` whose instruction has no meaning yet. Safe. No arm of this model raises it. -/
  | notModelled (mnemonic : String)
  deriving DecidableEq, Repr

/-- The outcome of a meaning or a step. -/
abbrev StepOutcome := Host.Outcome State Fault Refusal

/-- The machine right after RESET with the empty image (10_state.md R24; log entries 5 and 14). -/
def State.reset : State :=
  { pc := Config.resetVector, rb := 0, mem := ⟨[]⟩, halted := false, fault := none, inq := [], outq := [] }

end Sys2Proof.Machine
end

