-- ==== Sys2Proof/Machine/Memory.lean ====
section
/-!
DEFINITION. Machine/Memory.lean: the read and write contract of memory (20_memory.md R42, R43) and the loading of an image
(70_reset_and_hazards.md R181).
-/

namespace Sys2Proof.Machine

/-- The content a list of cells gives an address: its entry's, or 0 where none is listed. -/
def readCells (a : Int) : List MemCell → Int
  | [] => Config.unlistedCell
  | c :: rest => if c.1 = a then c.2 else readCells a rest

/-- The cells with address a holding v, put where it belongs by rising address. -/
def insertCell (a : Int) (v : Int) : List MemCell → List MemCell
  | [] => [(a, v)]
  | c :: rest =>
    if a < c.1 then (a, v) :: c :: rest
    else if a = c.1 then (a, v) :: rest
    else c :: insertCell a v rest

/-- MemRead(a, 1): defined for every address, 0 where nothing was written, no side effect (20_memory.md R42). -/
def Memory.read (m : Memory) (a : Int) : Int := readCells a m.cells

/-- MemWrite(a, 1, v): defined for every address and value; writing what an unlisted cell holds unlists the cell, so that
it cannot be told from a cell never written (20_memory.md R43, 10_state.md R18). -/
def Memory.write (m : Memory) (a : Int) (v : Int) : Memory :=
  if v = Config.unlistedCell then ⟨m.cells.filter (fun c => decide (c.1 ≠ a))⟩
  else ⟨insertCell a v m.cells⟩

/-- The integers of a list at consecutive addresses from a, over a memory. -/
def Memory.loadAt (m : Memory) (a : Int) : List Int → Memory
  | [] => m
  | v :: rest => (m.write a v).loadAt (a + 1) rest

/-- The memory after reset: entry i of the image at address i and 0 everywhere else (70_reset_and_hazards.md R181). -/
def imageMemory (image : List Int) : Memory := Memory.loadAt ⟨[]⟩ 0 image

end Sys2Proof.Machine
end

