-- ==== Sys2Proof/Machine/Flags.lean ====
section
/-!
DEFINITION. Machine/Flags.lean: HALTED, the machine's only flag (10_state.md R15), the status computed from it and from
FAULT (R17), and the values a comparison computes: a comparison sets no flag, its 0 or 1 goes to memory (44_compare.md).
-/

namespace Sys2Proof.Machine

/-- HALTED <- true (46_halt.md R150). -/
def State.setHalted (s : State) : State := { s with halted := true }

/-- STATUS, a function of HALTED and FAULT (10_state.md R17). -/
def State.status (s : State) : Status :=
  if s.fault ≠ none then .faulted else if s.halted then .halted else .running

/-- Why no step is enabled, or none in RUNNING (10_state.md R17, 40_cycle_and_operands.md R80). -/
def stopReason (s : State) : Option Fault :=
  match s.fault with
  | some record => some (.faulted record)
  | none => if s.halted then some .halted else none

/-- 1 if v is less than w as signed integers, else 0 (44_compare.md R130). -/
def lessThan (v w : Int) : Int := if v < w then 1 else 0

/-- 1 if v and w are the same integer, else 0 (44_compare.md R131). -/
def equals (v w : Int) : Int := if v = w then 1 else 0

end Sys2Proof.Machine
end

