-- ==== Sys2Proof/Machine/Operands.lean ====
section
/-!
DEFINITION. Machine/Operands.lean: the parameter-mode resolver (40_cycle_and_operands.md R83 to R88).
-/

namespace Sys2Proof.Machine

/-- A resolved parameter: where a write would land and what a read produces (40_cycle_and_operands.md R83). -/
structure Param where
  addr  : Int
  value : Int
  deriving DecidableEq, Repr

/-- The raw operand of parameter k: the cell PC + k (30_encoding.md R60, R65). -/
def rawOperand (s : State) (k : Nat) : Int := s.mem.read (s.pc + k)

/-- Resolve(k, mode), in the state before the instruction (40_cycle_and_operands.md R83): position R84, immediate R85,
relative R86. Total and pure (R87). -/
def resolve (s : State) (k : Nat) (mode : Mode) : Param :=
  match mode with
  | .position => ⟨rawOperand s k, s.mem.read (rawOperand s k)⟩
  | .immediate => ⟨s.pc + k, rawOperand s k⟩
  | .relative => ⟨rawOperand s k + s.rb, s.mem.read (rawOperand s k + s.rb)⟩

end Sys2Proof.Machine
end

