-- ==== Sys2Proof/Machine/Ops.lean ====
section
/-!
DEFINITION. Machine/Ops.lean: the named operations over the state that the meanings share: register and queue writes, the
fetch of an instruction, and the entry of a fatal condition. There is no return from one (60_exceptions.md R168): only
RESET leaves FAULTED, and it is State.resetWith below.
-/

namespace Sys2Proof.Machine

/-- PC <- t (00_scope.md R6). -/
def State.setPc (s : State) (t : Int) : State := { s with pc := t }

/-- PC <- PC + n: the advance of a sequential instruction (10_state.md R13). -/
def State.advance (s : State) (n : Nat) : State := s.setPc (s.pc + n)

/-- RB <- v (10_state.md R14). -/
def State.setRb (s : State) (v : Int) : State := { s with rb := v }

/-- M[a] <- v (20_memory.md R43). -/
def State.writeMem (s : State) (a : Int) (v : Int) : State := { s with mem := s.mem.write a v }

/-- INQ <- rest: what is left when its head has been removed (10_state.md R19). -/
def State.setInq (s : State) (rest : List Int) : State := { s with inq := rest }

/-- append(INQ, v): the host's end of the input queue (70_reset_and_hazards.md R183). -/
def State.pushInput (s : State) (v : Int) : State := { s with inq := s.inq ++ [v] }

/-- append(OUTQ, v) (42_input_output.md R111). -/
def State.emit (s : State) (v : Int) : State := { s with outq := s.outq ++ [v] }

/-- The number of a cause (60_exceptions.md R165, the spec's decision D8). -/
def causeCode : Cause → Nat
  | .unknownOpcode => 1
  | .badMode => 2
  | .wordRange => 3
  | .inputStarvation => 4
  | .cellRange => 5

/-- The `opcode` field of a cause record (10_state.md R16, the spec's decision D18). -/
def faultOpcode (w : Int) : Int := if 0 ≤ w ∧ w ≤ 99999 then w % 100 else w

/-- The instruction word at PC; a fetch never fails (40_cycle_and_operands.md R81). -/
def fetchWord (s : State) : Int := s.mem.read s.pc

/-- Fetch and decode (40_cycle_and_operands.md R81, R82). -/
def fetchInstr (s : State) : Except Cause Instr := decode (fetchWord s)

/-- The cause record of a fatal condition raised in s (10_state.md R16). -/
def faultRecord (c : Cause) (s : State) : FaultRecord :=
  { cause := c, word := fetchWord s, opcode := faultOpcode (fetchWord s), pc := s.pc, rb := s.rb }

/-- The entry of a fatal condition, the one operation every cause shares: FAULT is set and nothing else changes
(40_cycle_and_operands.md R91, 60_exceptions.md R167; log entry 13). -/
def takeFault (c : Cause) (s : State) : State := { s with fault := some (faultRecord c s) }

/-- RESET(IMAGE): every component at its value of 10_state.md R24 (70_reset_and_hazards.md R180, R181). -/
def State.resetWith (image : List Int) : State := { State.reset with mem := imageMemory image }

/-- s, RUNNING, with the instruction word w at PC and zeros in the three operand cells after it (log entry 4). -/
def placeInstruction (w : Int) (s : State) : State :=
  { s with mem := s.mem.loadAt s.pc [w, 0, 0, 0], halted := false, fault := none }

end Sys2Proof.Machine
end

