-- ==== Sys2Proof/Machine/Range.lean ====
section
/-!
DEFINITION. Machine/Range.lean: the parameter CELL_RANGE at work (41_arithmetic.md R103). Every meaning is written once, with
the range as an argument; this hardware's meanings are those at Config.cellRange, which admits every integer, so that cause
code 5 never occurs there.
-/

namespace Sys2Proof.Machine

/-- v lies in the range (00_scope.md R4, 41_arithmetic.md R103). -/
def inRange (r : CellRange) (v : Int) : Bool :=
  match r with
  | .all => true
  | .between lo hi => decide (lo ≤ v) && decide (v ≤ hi)

/-- The end of an instruction whose effect leads to t: t itself when every value and address the instruction forms lies in
the range, and otherwise a fatal condition with cause code 5 that changes nothing else (41_arithmetic.md R103). -/
def completeWithin (r : CellRange) (formed : List Int) (s t : State) : StepOutcome :=
  if formed.all (inRange r) then .next t else .next (takeFault .cellRange s)

/-- The addresses parameter k of an instruction forms: its operand cell and its effective address (log entry 8). -/
def paramAddrs (s : State) (k : Nat) (mode : Mode) : List Int := [s.pc + k, (resolve s k mode).addr]

end Sys2Proof.Machine
end

