-- ==== Sys2Proof/Machine/Store.lean ====
section
/-!
DEFINITION. Machine/Store.lean: the shared operations the instruction families are made of: the three-parameter store (ADD,
MUL, LT, EQ) and the conditional jump (JT, JF). All reads are made in the state before the instruction (20_memory.md R52).
-/

namespace Sys2Proof.Machine

/-- M[P3.addr] <- f P1.value P2.value; PC <- PC + 4 (the common shape of R100, R101, R130, R131). -/
def storeBinary (r : CellRange) (f : Int → Int → Int) (m1 m2 m3 : Mode) (s : State) : StepOutcome :=
  let v := f (resolve s 1 m1).value (resolve s 2 m2).value
  let dest := (resolve s 3 m3).addr
  completeWithin r
    (paramAddrs s 1 m1 ++ paramAddrs s 2 m2 ++ paramAddrs s 3 m3 ++ [v, s.pc + 4])
    s ((s.writeMem dest v).advance 4)

/-- PC <- P2.value where the condition holds of P1.value, else PC <- PC + 3 (the common shape of R120, R121). -/
def jumpWhen (r : CellRange) (cond : Int → Bool) (m1 m2 : Mode) (s : State) : StepOutcome :=
  let target := if cond (resolve s 1 m1).value then (resolve s 2 m2).value else s.pc + 3
  completeWithin r (paramAddrs s 1 m1 ++ paramAddrs s 2 m2 ++ [target]) s (s.setPc target)

end Sys2Proof.Machine
end

