-- ==== Sys2Proof/Machine/Arithmetic.lean ====
section
/-!
DEFINITION. Machine/Arithmetic.lean: ADD and MUL (41_arithmetic.md).
-/

namespace Sys2Proof.Machine

/-- ADD with the cell range as an argument (41_arithmetic.md R100, R103). -/
def addWithin (r : CellRange) (m1 m2 m3 : Mode) (s : State) : StepOutcome :=
  storeBinary r (fun v w => v + w) m1 m2 m3 s

/-- ADD: M[P3.addr] <- P1.value + P2.value, PC <- PC + 4 (41_arithmetic.md R100). -/
def execAdd (m1 m2 m3 : Mode) (s : State) : StepOutcome := addWithin Config.cellRange m1 m2 m3 s

/-- MUL with the cell range as an argument (41_arithmetic.md R101, R103). -/
def mulWithin (r : CellRange) (m1 m2 m3 : Mode) (s : State) : StepOutcome :=
  storeBinary r (fun v w => v * w) m1 m2 m3 s

/-- MUL: M[P3.addr] <- P1.value * P2.value, PC <- PC + 4 (41_arithmetic.md R101). -/
def execMul (m1 m2 m3 : Mode) (s : State) : StepOutcome := mulWithin Config.cellRange m1 m2 m3 s

end Sys2Proof.Machine
end

