-- ==== Sys2Proof/Machine/Compare.lean ====
section
/-!
DEFINITION. Machine/Compare.lean: LT and EQ (44_compare.md).
-/

namespace Sys2Proof.Machine

/-- LT with the cell range as an argument (44_compare.md R130, 41_arithmetic.md R103). -/
def ltWithin (r : CellRange) (m1 m2 m3 : Mode) (s : State) : StepOutcome :=
  storeBinary r lessThan m1 m2 m3 s

/-- LT: M[P3.addr] <- 1 if P1.value < P2.value else 0, PC <- PC + 4 (44_compare.md R130). -/
def execLt (m1 m2 m3 : Mode) (s : State) : StepOutcome := ltWithin Config.cellRange m1 m2 m3 s

/-- EQ with the cell range as an argument (44_compare.md R131, 41_arithmetic.md R103). -/
def eqWithin (r : CellRange) (m1 m2 m3 : Mode) (s : State) : StepOutcome :=
  storeBinary r equals m1 m2 m3 s

/-- EQ: M[P3.addr] <- 1 if P1.value = P2.value else 0, PC <- PC + 4 (44_compare.md R131). -/
def execEq (m1 m2 m3 : Mode) (s : State) : StepOutcome := eqWithin Config.cellRange m1 m2 m3 s

end Sys2Proof.Machine
end

