-- ==== Sys2Proof/Machine/Halt.lean ====
section
/-!
DEFINITION. Machine/Halt.lean: HALT (46_halt.md). It forms no value and no address, so CELL_RANGE has no bearing on it.
-/

namespace Sys2Proof.Machine

/-- HALT: HALTED <- true, PC unchanged (46_halt.md R150); the three modes have nothing to apply to. -/
def execHalt (_m1 _m2 _m3 : Mode) (s : State) : StepOutcome := .next s.setHalted

end Sys2Proof.Machine
end

