-- ==== Sys2Proof/Machine/InputOutput.lean ====
section
/-!
DEFINITION. Machine/InputOutput.lean: IN and OUT (42_input_output.md). The modes of the parameters they do not have are taken
and not used (30_encoding.md R64).
-/

namespace Sys2Proof.Machine

/-- IN with the cell range as an argument; starvation is checked before the range (60_exceptions.md R166). -/
def inWithin (r : CellRange) (m1 _m2 _m3 : Mode) (s : State) : StepOutcome :=
  match s.inq with
  | [] => .next (takeFault .inputStarvation s)
  | v :: rest =>
    let dest := (resolve s 1 m1).addr
    completeWithin r (paramAddrs s 1 m1 ++ [v, s.pc + 2])
      s (((s.setInq rest).writeMem dest v).advance 2)

/-- IN: raise code 4 when INQ is empty; else M[P1.addr] <- head(INQ), pop(INQ), PC <- PC + 2 (42_input_output.md R110). -/
def execIn (m1 m2 m3 : Mode) (s : State) : StepOutcome := inWithin Config.cellRange m1 m2 m3 s

/-- OUT with the cell range as an argument (42_input_output.md R111, 41_arithmetic.md R103). -/
def outWithin (r : CellRange) (m1 _m2 _m3 : Mode) (s : State) : StepOutcome :=
  completeWithin r (paramAddrs s 1 m1 ++ [s.pc + 2])
    s ((s.emit (resolve s 1 m1).value).advance 2)

/-- OUT: append(OUTQ, P1.value), PC <- PC + 2 (42_input_output.md R111). -/
def execOut (m1 m2 m3 : Mode) (s : State) : StepOutcome := outWithin Config.cellRange m1 m2 m3 s

end Sys2Proof.Machine
end

