-- ==== Sys2Proof/Machine/Jumps.lean ====
section
/-!
DEFINITION. Machine/Jumps.lean: JT and JF (43_jumps.md). The target is the value of the second parameter, an absolute cell
address that nothing checks (R122).
-/

namespace Sys2Proof.Machine

/-- JT with the cell range as an argument (43_jumps.md R120, 41_arithmetic.md R103). -/
def jtWithin (r : CellRange) (m1 m2 _m3 : Mode) (s : State) : StepOutcome :=
  jumpWhen r (fun v => decide (v ≠ 0)) m1 m2 s

/-- JT: PC <- P2.value if P1.value != 0, else PC <- PC + 3 (43_jumps.md R120). -/
def execJt (m1 m2 m3 : Mode) (s : State) : StepOutcome := jtWithin Config.cellRange m1 m2 m3 s

/-- JF with the cell range as an argument (43_jumps.md R121, 41_arithmetic.md R103). -/
def jfWithin (r : CellRange) (m1 m2 _m3 : Mode) (s : State) : StepOutcome :=
  jumpWhen r (fun v => decide (v = 0)) m1 m2 s

/-- JF: PC <- P2.value if P1.value = 0, else PC <- PC + 3 (43_jumps.md R121). -/
def execJf (m1 m2 m3 : Mode) (s : State) : StepOutcome := jfWithin Config.cellRange m1 m2 m3 s

end Sys2Proof.Machine
end

