-- ==== Sys2Proof/Machine/RelativeBase.lean ====
section
/-!
DEFINITION. Machine/RelativeBase.lean: ARB (45_relative_base.md).
-/

namespace Sys2Proof.Machine

/-- ARB with the cell range as an argument (45_relative_base.md R140, 41_arithmetic.md R103). -/
def arbWithin (r : CellRange) (m1 _m2 _m3 : Mode) (s : State) : StepOutcome :=
  let v := s.rb + (resolve s 1 m1).value
  completeWithin r (paramAddrs s 1 m1 ++ [v, s.pc + 2]) s ((s.setRb v).advance 2)

/-- ARB: RB <- RB + P1.value, PC <- PC + 2, the parameter resolved with the old RB (45_relative_base.md R140). -/
def execArb (m1 m2 m3 : Mode) (s : State) : StepOutcome := arbWithin Config.cellRange m1 m2 m3 s

end Sys2Proof.Machine
end

