-- ==== Sys2Proof/Machine/Dispatch.lean ====
section
/-!
DEFINITION. Machine/Dispatch.lean: Execute(op, P1, P2, P3) (40_cycle_and_operands.md R89): one arm per instruction.
-/

namespace Sys2Proof.Machine

/-- The rule of an instruction, performed in the state before it (40_cycle_and_operands.md R89). -/
def exec (i : Instr) (s : State) : Host.Outcome State Fault Refusal :=
  match i with
  | .add m1 m2 m3 => Sys2Proof.Machine.execAdd m1 m2 m3 s
  | .mul m1 m2 m3 => Sys2Proof.Machine.execMul m1 m2 m3 s
  | .inp m1 m2 m3 => Sys2Proof.Machine.execIn m1 m2 m3 s
  | .out m1 m2 m3 => Sys2Proof.Machine.execOut m1 m2 m3 s
  | .jt m1 m2 m3 => Sys2Proof.Machine.execJt m1 m2 m3 s
  | .jf m1 m2 m3 => Sys2Proof.Machine.execJf m1 m2 m3 s
  | .lt m1 m2 m3 => Sys2Proof.Machine.execLt m1 m2 m3 s
  | .eq m1 m2 m3 => Sys2Proof.Machine.execEq m1 m2 m3 s
  | .arb m1 m2 m3 => Sys2Proof.Machine.execArb m1 m2 m3 s
  | .halt m1 m2 m3 => Sys2Proof.Machine.execHalt m1 m2 m3 s

end Sys2Proof.Machine
end

