-- ==== Sys2Proof/Machine/Step.lean ====
section
/-!
DEFINITION. Machine/Step.lean: the step (40_cycle_and_operands.md R80): fetch, decode, execute, or raise.
-/

namespace Sys2Proof.Machine

/-- Step (40_cycle_and_operands.md R80). Outside RUNNING there is no step (10_state.md R17; log entry 3); a word that Decode
rejects raises (R82, R91); any other is executed (R89). One step is the whole effect of one instruction, without duration
(log entry 11). -/
def step (s : State) : Host.Outcome State Fault Refusal :=
  match stopReason s with
  | some reason => .fault reason
  | none =>
    match fetchInstr s with
    | .error c => .next (takeFault c s)
    | .ok i => exec i s

/-- s with the opcode table's instruction of bits w at PC, RUNNING, so that the next step runs it (log entry 4). -/
def State.withFetchWord (s : State) (nbits w : Nat) : State := placeInstruction (tableWord nbits w) s

end Sys2Proof.Machine
end

