-- ==== Sys2Proof/Machine/Run.lean ====
section
/-!
DEFINITION. Machine/Run.lean: RUN under fuel (40_cycle_and_operands.md R90; log entry 7), the values a run moves through the
queues, and the same step for a finite CELL_RANGE (41_arithmetic.md R103).
-/

namespace Sys2Proof.Machine

/-- Repeat a step while it answers a next state, at most n times. -/
def runBy (stepOf : State → StepOutcome) : Nat → State → State
  | 0, s => s
  | n + 1, s =>
    match stepOf s with
    | .next t => runBy stepOf n t
    | .fault _ => s
    | .refused _ => s

/-- Run (40_cycle_and_operands.md R90), at most n steps. -/
def run (n : Nat) (s : State) : State := runBy step n s

/-- The value the next step appends to OUTQ, if it executes OUT (42_input_output.md R111). -/
def nextOutput (s : State) : List Int :=
  match stopReason s, fetchInstr s with
  | none, .ok (.out m1 _ _) => [(resolve s 1 m1).value]
  | _, _ => []

/-- The values of the OUT instructions that a run of at most n steps executes, in order (42_input_output.md R112). -/
def outputHistory : Nat → State → List Int
  | 0, _ => []
  | n + 1, s => nextOutput s ++ outputHistory n (run 1 s)

/-- The entry the next step removes from INQ, if it executes IN on a queue that holds one (42_input_output.md R110). -/
def nextInput (s : State) : List Int :=
  match stopReason s, fetchInstr s with
  | none, .ok (.inp _ _ _) => s.inq.take 1
  | _, _ => []

/-- The values the IN instructions of a run of at most n steps receive, in order (42_input_output.md R112). -/
def inputHistory : Nat → State → List Int
  | 0, _ => []
  | n + 1, s => nextInput s ++ inputHistory n (run 1 s)

/-- The rule of an instruction on a machine with cell range r (41_arithmetic.md R103). -/
def execWithin (r : CellRange) (i : Instr) (s : State) : StepOutcome :=
  match i with
  | .add m1 m2 m3 => addWithin r m1 m2 m3 s
  | .mul m1 m2 m3 => mulWithin r m1 m2 m3 s
  | .inp m1 m2 m3 => inWithin r m1 m2 m3 s
  | .out m1 m2 m3 => outWithin r m1 m2 m3 s
  | .jt m1 m2 m3 => jtWithin r m1 m2 m3 s
  | .jf m1 m2 m3 => jfWithin r m1 m2 m3 s
  | .lt m1 m2 m3 => ltWithin r m1 m2 m3 s
  | .eq m1 m2 m3 => eqWithin r m1 m2 m3 s
  | .arb m1 m2 m3 => arbWithin r m1 m2 m3 s
  | .halt m1 m2 m3 => execHalt m1 m2 m3 s

/-- The step of a machine with cell range r (41_arithmetic.md R103). -/
def stepWithin (r : CellRange) (s : State) : StepOutcome :=
  match stopReason s with
  | some reason => .fault reason
  | none =>
    match fetchInstr s with
    | .error c => .next (takeFault c s)
    | .ok i => execWithin r i s

/-- Run on a machine with cell range r. -/
def runWithin (r : CellRange) (n : Nat) (s : State) : State := runBy (stepWithin r) n s

end Sys2Proof.Machine
end

