-- ==== Sys2Proof/Machine/HostOps.lean ====
section
/-!
DEFINITION. Machine/HostOps.lean: the operations the host may perform on an instance (70_reset_and_hazards.md R183), when each
is allowed (R184), and the convenience RUN_TO_IO (R189).
-/

namespace Sys2Proof.Machine

/-- An instance as its host sees it. `stepped` says whether a step has been executed since reset: POKE's condition (R184)
needs it and no instruction can see it, so it is kept beside the machine's state, not in it; `popped` is what the host has
drained from OUTQ since reset, oldest first (42_input_output.md R112; log entry 6). -/
structure Session where
  machine : State
  stepped : Bool
  popped  : List Int
  deriving DecidableEq, Repr

/-- The operations of 70_reset_and_hazards.md R183, the only ones a host has (log entry 10); RUN has a bound on its steps (log
entry 7). -/
inductive HostOp where
  | reset (image : List Int)
  | poke (a : Int) (v : Int)
  | pushInput (v : Int)
  | step
  | run (fuel : Nat)
  | popOutput
  | peek (a : Int)
  | readStatus
  deriving DecidableEq, Repr

/-- What an operation returns to the host (70_reset_and_hazards.md R183). -/
inductive Reply where
  /-- The operation returns nothing. -/
  | done
  /-- PEEK: the content of the cell. -/
  | cell (v : Int)
  /-- POP_OUTPUT: the oldest output, or none. -/
  | output (v : Option Int)
  /-- READ_STATUS: STATUS, PC, RB, FAULT and the lengths of INQ and OUTQ. -/
  | status (st : Status) (pc : Int) (rb : Int) (fault : Option FaultRecord) (inqLength outqLength : Nat)
  deriving DecidableEq, Repr

/-- An instance right after RESET(IMAGE) (70_reset_and_hazards.md R180). -/
def Session.fresh (image : List Int) : Session := { machine := State.resetWith image, stepped := false, popped := [] }

/-- The table of 70_reset_and_hazards.md R184, and R103's restriction of the integers a host supplies: with a finite range an
image's entries, and the addresses it fills, lie in the range. -/
def hostAllowed (r : CellRange) (op : HostOp) (x : Session) : Bool :=
  match op with
  | .reset image => image.all (inRange r) && (image.isEmpty || inRange r (image.length - 1))
  | .poke a v => x.machine.status == .running && !x.stepped && inRange r a && inRange r v
  | .pushInput v => x.machine.status == .running && inRange r v
  | .step | .run _ => x.machine.status == .running
  | .popOutput | .peek _ | .readStatus => true

/-- One step of the machine as a host operation; outside RUNNING nothing happens. -/
def stepOnce (r : CellRange) (s : State) : State := runWithin r 1 s

/-- The effect and the answer of an operation (70_reset_and_hazards.md R183). -/
def hostEffect (r : CellRange) (op : HostOp) (x : Session) : Session × Reply :=
  match op with
  | .reset image => (Session.fresh image, .done)
  | .poke a v => ({ x with machine := x.machine.writeMem a v }, .done)
  | .pushInput v => ({ x with machine := x.machine.pushInput v }, .done)
  | .step => ({ x with machine := stepOnce r x.machine, stepped := true }, .done)
  | .run fuel =>
    ({ x with machine := runWithin r fuel x.machine, stepped := x.stepped || decide (0 < fuel) }, .done)
  | .popOutput =>
    match x.machine.outq with
    | [] => (x, .output none)
    | v :: rest =>
      ({ x with machine := { x.machine with outq := rest }, popped := x.popped ++ [v] }, .output (some v))
  | .peek a => (x, .cell (x.machine.mem.read a))
  | .readStatus =>
    (x, .status x.machine.status x.machine.pc x.machine.rb x.machine.fault
      x.machine.inq.length x.machine.outq.length)

/-- A host operation on an instance with cell range r, or none where the host has no such move (R184). -/
def hostApplyWithin (r : CellRange) (op : HostOp) (x : Session) : Option (Session × Reply) :=
  if hostAllowed r op x then some (hostEffect r op x) else none

/-- A host operation on an instance of this hardware (70_reset_and_hazards.md R183, R184). -/
def hostApply (op : HostOp) (x : Session) : Option (Session × Reply) := hostApplyWithin Config.cellRange op x

/-- Host operations one after another, their answers dropped; none where one of them is not allowed. -/
def hostApplyAll : List HostOp → Session → Option Session
  | [], x => some x
  | op :: ops, x =>
    match hostApply op x with
    | none => none
    | some (y, _) => hostApplyAll ops y

/-- The output history: everything the host has popped and what is still in OUTQ (42_input_output.md R112). -/
def Session.outputs (x : Session) : List Int := x.popped ++ x.machine.outq

/-- The result of a run that is over (70_reset_and_hazards.md R185). -/
structure RunResult where
  /-- HALTED at a normal end, FAULTED at an abnormal one. -/
  ending     : Status
  mem        : Memory
  pc         : Int
  rb         : Int
  outputs    : List Int
  unconsumed : List Int
  fault      : Option FaultRecord
  deriving DecidableEq, Repr

/-- The result of the run, or none while the machine is RUNNING (70_reset_and_hazards.md R185). -/
def runResult (x : Session) : Option RunResult :=
  if x.machine.status = .running then none
  else some
    { ending := x.machine.status, mem := x.machine.mem, pc := x.machine.pc, rb := x.machine.rb,
      outputs := x.outputs, unconsumed := x.machine.inq, fault := x.machine.fault }

/-- Why RUN_TO_IO returned (70_reset_and_hazards.md R189). -/
inductive IoStop where
  /-- The next instruction's opcode field is 3 and INQ is empty; no step was issued for it. -/
  | needsInput
  /-- The last step executed opcode 4. -/
  | producedOutput
  /-- STATUS is no longer RUNNING. -/
  | ended (st : Status)
  /-- The bound on the steps was reached where RUN_TO_IO would issue another (log entry 7). -/
  | outOfFuel
  deriving DecidableEq, Repr

/-- The condition of R189: `0 <= w <= 99999 and w mod 100 = 3 and INQ is empty`. -/
def awaitsInput (s : State) : Bool :=
  decide (0 ≤ fetchWord s) && decide (fetchWord s ≤ 99999) && decide (fetchWord s % 100 = 3) && s.inq.isEmpty

/-- Why RUN_TO_IO returns without a further step, or none where it issues one (70_reset_and_hazards.md R189). -/
def ioPause (s : State) : Option IoStop :=
  if s.status ≠ .running then some (.ended s.status)
  else if awaitsInput s then some .needsInput
  else none

/-- RUN_TO_IO, a host convenience and no feature of the core (70_reset_and_hazards.md R189), at most n steps. -/
def runToIo : Nat → State → State × IoStop
  | 0, s => (s, (ioPause s).getD .outOfFuel)
  | n + 1, s =>
    match ioPause s with
    | some reason => (s, reason)
    | none => if (nextOutput s).isEmpty then runToIo n (run 1 s) else (run 1 s, .producedOutput)

end Sys2Proof.Machine
end

