-- ==== Sys2Proof/Safety.lean ====
section
/-!
DEFINITION. Safety.lean: the terms in which statements about the machine are made: how a run ends (70_reset_and_hazards.md
R185), what a state that a run can reach looks like, and what an instruction leaves unchanged.
-/

namespace Sys2Proof.Machine

/-- The run has ended normally: a step has executed HALT (70_reset_and_hazards.md R185). -/
abbrev State.endedNormally (s : State) : Prop := s.status = .halted

/-- The run has ended abnormally: a fatal condition was raised (70_reset_and_hazards.md R185, 60_exceptions.md R178). -/
abbrev State.endedAbnormally (s : State) : Prop := s.status = .faulted

/-- The cause a record names is one that the word at PC, and for IN the empty queue, gives (60_exceptions.md R161 to R165);
code 5 never occurs on this hardware. -/
def causeExplained (c : Cause) (s : State) : Prop :=
  match c with
  | .unknownOpcode | .badMode | .wordRange => fetchInstr s = .error c
  | .inputStarvation => (∃ m1 m2 m3, fetchInstr s = .ok (.inp m1 m2 m3)) ∧ s.inq = []
  | .cellRange => False

/-- What holds of every state of an instance between steps: memory is in its one form; FAULT and HALTED are never both set
(10_state.md R17); a halted machine has PC at a HALT word (46_halt.md R150); and a fault record is the record of the state
the machine is in, with a cause that state explains (10_state.md R16, 60_exceptions.md R167). -/
structure State.Inv (s : State) : Prop where
  memory : s.mem.wf
  oneEnd : s.fault ≠ none → s.halted = false
  haltWord : s.halted = true → ∃ m1 m2 m3, fetchInstr s = .ok (.halt m1 m2 m3)
  record : ∀ f, s.fault = some f → f = faultRecord f.cause s ∧ causeExplained f.cause s

/-- Every integer the machine holds lies in the range (41_arithmetic.md R103). -/
structure State.Within (r : CellRange) (s : State) : Prop where
  pc : inRange r s.pc = true
  rb : inRange r s.rb = true
  cells : ∀ c ∈ s.mem.cells, inRange r c.1 = true ∧ inRange r c.2 = true
  inputs : ∀ v ∈ s.inq, inRange r v = true
  outputs : ∀ v ∈ s.outq, inRange r v = true

/-- RUN_TO_IO's condition for "needs input" (70_reset_and_hazards.md R189), in the spec's words: the word at PC is in 0..99999
with opcode field 3, and INQ is empty. -/
def wantsInput (s : State) : Prop :=
  s.status = .running ∧ 0 ≤ s.mem.read s.pc ∧ s.mem.read s.pc ≤ 99999 ∧ s.mem.read s.pc % 100 = 3 ∧ s.inq = []

/-- The next step executes opcode 4 (70_reset_and_hazards.md R189, 42_input_output.md R111). -/
def executesOut (s : State) : Prop :=
  s.status = .running ∧ ∃ m1 m2 m3, decode (s.mem.read s.pc) = .ok (.out m1 m2 m3)

/-- The first k steps of a run from s are all issued, and none of them is a reason for RUN_TO_IO to return
(70_reset_and_hazards.md R189). -/
def passesIo (k : Nat) (s : State) : Prop :=
  ∀ j, j < k → (run j s).status = .running ∧ ¬ wantsInput (run j s) ∧ ¬ executesOut (run j s)

/-- s with FAULT holding this record and everything else as it was. -/
def State.withRecord (s : State) (f : FaultRecord) : State := { s with fault := some f }

/-- The parameters an instruction has, by number and mode (30_encoding.md R63). -/
def usedParams : Instr → List (Nat × Mode)
  | .add m1 m2 m3 | .mul m1 m2 m3 | .lt m1 m2 m3 | .eq m1 m2 m3 => [(1, m1), (2, m2), (3, m3)]
  | .jt m1 m2 _ | .jf m1 m2 _ => [(1, m1), (2, m2)]
  | .inp m1 _ _ | .out m1 _ _ | .arb m1 _ _ => [(1, m1)]
  | .halt _ _ _ => []

/-- The cell an instruction stores to and the value it stores, if it stores one (10_state.md R26): IN stores nothing when INQ
is empty. -/
def storedCell (i : Instr) (s : State) : Option (Int × Int) :=
  match i with
  | .add m1 m2 m3 => some ((resolve s 3 m3).addr, (resolve s 1 m1).value + (resolve s 2 m2).value)
  | .mul m1 m2 m3 => some ((resolve s 3 m3).addr, (resolve s 1 m1).value * (resolve s 2 m2).value)
  | .lt m1 m2 m3 => some ((resolve s 3 m3).addr, if (resolve s 1 m1).value < (resolve s 2 m2).value then 1 else 0)
  | .eq m1 m2 m3 => some ((resolve s 3 m3).addr, if (resolve s 1 m1).value = (resolve s 2 m2).value then 1 else 0)
  | .inp m1 _ _ => s.inq.head?.map (fun v => ((resolve s 1 m1).addr, v))
  | .out _ _ _ | .jt _ _ _ | .jf _ _ _ | .arb _ _ _ | .halt _ _ _ => none

/-- t's memory is s's with cell a holding v: every other cell reads as before. -/
def storesOnly (s t : State) (a : Int) (v : Int) : Prop :=
  ∀ b, t.mem.read b = if b = a then v else s.mem.read b

/-- Every cell reads as before. -/
def sameMemory (s t : State) : Prop := ∀ b, t.mem.read b = s.mem.read b

/-- RB, INQ, OUTQ, HALTED and FAULT are as before: the frame of an instruction that only writes a cell and PC. -/
def sameRegisters (s t : State) : Prop :=
  t.rb = s.rb ∧ t.inq = s.inq ∧ t.outq = s.outq ∧ t.halted = s.halted ∧ t.fault = s.fault

end Sys2Proof.Machine
end

