-- ==== Sys2Proof/Certificates/Slice0/Obligations.lean ====
section
/-!
DEFINITION. Certificates/Slice0/Obligations.lean: the statements for the provers. A docstring names the rule of spec/ that a
statement formalises; where a statement rests on one of the spec's own decisions or inferences, or on a choice of this model,
the docstring says so.
-/

open Sys2Proof Sys2Proof.Machine

/-! ## Encoding -/

/-- Decode and encode agree: the words that decode to an instruction are exactly its own word (30_encoding.md sections 1 and 2;
that 0, 1 and 2 are legal in the digits of absent parameters is the spec's decision D5). -/
def Obligations.DecodeEncodeAgree : Prop :=
  ∀ (w : Int) (i : Instr), decode w = .ok i ↔ encode i = w

/-- The legal words are exactly 10000*c + 1000*b + 100*a + op with a, b, c at most 2 and op one of the ten opcodes
(30_encoding.md section 2; the spec's decisions D4 and D5). -/
def Obligations.LegalWordsAreTheTenOpcodesWithLegalModes : Prop :=
  ∀ w : Int, (∃ i, decode w = .ok i) ↔
    ∃ a b c op : Nat, a ≤ 2 ∧ b ≤ 2 ∧ c ≤ 2 ∧ op ∈ [1, 2, 3, 4, 5, 6, 7, 8, 9, 99] ∧
      w = 10000 * c + 1000 * b + 100 * a + op

/-- Words written out from the examples of 30_encoding.md (sections 1 and 2) and 95_test_vectors.md 2.1, one for each
opcode, decode to the instructions they stand for. -/
def Obligations.SpecWordsDecode : Prop :=
  decode 11101 = .ok (.add .immediate .immediate .immediate) ∧
  decode 1002 = .ok (.mul .position .immediate .position) ∧
  decode 20203 = .ok (.inp .relative .position .relative) ∧
  decode 204 = .ok (.out .relative .position .position) ∧
  decode 2105 = .ok (.jt .immediate .relative .position) ∧
  decode 1006 = .ok (.jf .position .immediate .position) ∧
  decode 21107 = .ok (.lt .immediate .immediate .relative) ∧
  decode 1008 = .ok (.eq .position .immediate .position) ∧
  decode 209 = .ok (.arb .relative .position .position) ∧
  decode 22299 = .ok (.halt .relative .relative .relative) ∧
  decode 0 = .error .unknownOpcode ∧ decode 30000 = .error .unknownOpcode ∧
  decode 303 = .error .badMode ∧ decode 99999 = .error .badMode ∧
  decode (-1) = .error .wordRange ∧ decode 100001 = .error .wordRange

/-- R66: the length of an instruction is fixed by its opcode: 1 for HALT, 2 for IN, OUT, ARB, 3 for JT, JF and 4 for the rest;
and every instruction that completes, other than HALT and a jump that is taken, leaves PC just behind its last cell. -/
def Obligations.LengthIsFixedByOpcode : Prop :=
  (∀ i : Instr, i.opcode.length =
    (if i.opcode.number = 99 then 1
     else if i.opcode.number = 3 ∨ i.opcode.number = 4 ∨ i.opcode.number = 9 then 2
     else if i.opcode.number = 5 ∨ i.opcode.number = 6 then 3 else 4)) ∧
  (∀ (i : Instr) (s t : State), fetchInstr s = .ok i → step s = .next t → t.fault = none →
    i.opcode ≠ .halt → (i.opcode = .jt → (resolve s 1 i.mode1).value = 0) →
    (i.opcode = .jf → (resolve s 1 i.mode1).value ≠ 0) → t.pc = s.pc + i.opcode.length)

/-- A line of the assembler notation with the right number of operands assembles to as many cells as the instruction has: the
first is the word of the line's opcode whose modes are those of the operands in parameter order, position where the opcode has
no such parameter, and so a canonical word; the others are the raw operands in the same order. A line of data assembles to its
integers as they stand (30_encoding.md section 3; the notation is the spec's decision D9). -/
def Obligations.AssembledLineIsCanonical : Prop :=
  (∀ (op : Opcode) (ps : List AsmOperand), (AsmLine.instr op ps).wf = true →
    (assemble (.instr op ps)).length = op.length ∧
    (assemble (.instr op ps)).tail = ps.map (·.raw) ∧
    ∃ (w : Int) (i : Instr), (assemble (.instr op ps)).head? = some w ∧ decode w = .ok i ∧
      i = op.instr ((ps.map (·.mode)).getD 0 .position) ((ps.map (·.mode)).getD 1 .position)
        ((ps.map (·.mode)).getD 2 .position) ∧
      i.opcode = op ∧ i.canonical = true) ∧
  (∀ values : List Int, assemble (.data values) = values)

/-- The modes of parameters an opcode does not have have no effect when the instruction is executed (30_encoding.md section 2,
the spec's decision D5; 40_cycle_and_operands.md section 2). -/
def Obligations.UnusedModeDigitsHaveNoEffect : Prop :=
  ∀ (m1 m2 m3 n1 n2 n3 : Mode) (s : State),
    exec (.inp m1 m2 m3) s = exec (.inp m1 n2 n3) s ∧
    exec (.out m1 m2 m3) s = exec (.out m1 n2 n3) s ∧
    exec (.arb m1 m2 m3) s = exec (.arb m1 n2 n3) s ∧
    exec (.jt m1 m2 m3) s = exec (.jt m1 m2 n3) s ∧
    exec (.jf m1 m2 m3) s = exec (.jf m1 m2 n3) s ∧
    exec (.halt m1 m2 m3) s = exec (.halt n1 n2 n3) s

/-! ## The step and the fatal conditions -/

/-- A step of a RUNNING machine whose word at PC decodes is the execution of that instruction: nothing is added around it
(40_cycle_and_operands.md section 1). -/
def Obligations.StepRunsDecodedInstruction : Prop :=
  ∀ (s : State) (i : Instr), s.status = .running → decode (s.mem.read s.pc) = .ok i → step s = exec i s

/-- A word in range whose opcode field names no instruction raises code 1, whatever its mode digits; the record holds the word,
its opcode field, PC and RB (60_exceptions.md section 1; the number is the spec's decision D8, and that nothing else changes
its decision D7). -/
def Obligations.UnknownOpcodeFaults : Prop :=
  causeCode .unknownOpcode = 1 ∧
  ∀ s : State, s.status = .running → 0 ≤ s.mem.read s.pc → s.mem.read s.pc ≤ 99999 →
    (s.mem.read s.pc % 100 ∉ ([1, 2, 3, 4, 5, 6, 7, 8, 9, 99] : List Int)) →
    step s = .next (s.withRecord ⟨.unknownOpcode, s.mem.read s.pc, s.mem.read s.pc % 100, s.pc, s.rb⟩)

/-- A word in range with one of the ten opcodes and a mode digit above 2, of any of the three parameters, raises code 2
(60_exceptions.md section 1; that digits of absent parameters are checked is the spec's decision D5, the number its decision D8,
and that nothing else changes its decision D7). -/
def Obligations.BadModeFaults : Prop :=
  causeCode .badMode = 2 ∧
  ∀ s : State, s.status = .running → 0 ≤ s.mem.read s.pc → s.mem.read s.pc ≤ 99999 →
    (s.mem.read s.pc % 100 ∈ ([1, 2, 3, 4, 5, 6, 7, 8, 9, 99] : List Int)) →
    (2 < s.mem.read s.pc / 100 % 10 ∨ 2 < s.mem.read s.pc / 1000 % 10 ∨ 2 < s.mem.read s.pc / 10000 % 10) →
    step s = .next (s.withRecord ⟨.badMode, s.mem.read s.pc, s.mem.read s.pc % 100, s.pc, s.rb⟩)

/-- A word below 0 or above 99999 raises code 3, and the record's opcode is the whole word (60_exceptions.md section 1; the
spec's decisions D4, D7, D8 and D18). -/
def Obligations.WordOutOfRangeFaults : Prop :=
  causeCode .wordRange = 3 ∧
  ∀ s : State, s.status = .running → (s.mem.read s.pc < 0 ∨ 99999 < s.mem.read s.pc) →
    step s = .next (s.withRecord ⟨.wordRange, s.mem.read s.pc, s.mem.read s.pc, s.pc, s.rb⟩)

/-- IN on an empty queue raises code 4 and changes nothing else; only IN on an empty queue raises it; and HALT does not object
to input left over (60_exceptions.md section 1; the spec's decisions D7 and D8). -/
def Obligations.InputStarvationFaults : Prop :=
  causeCode .inputStarvation = 4 ∧
  (∀ (m1 m2 m3 : Mode) (s : State), s.status = .running → decode (s.mem.read s.pc) = .ok (.inp m1 m2 m3) → s.inq = [] →
    step s = .next (s.withRecord ⟨.inputStarvation, s.mem.read s.pc, 3, s.pc, s.rb⟩)) ∧
  (∀ (s t : State) (f : FaultRecord), s.status = .running → step s = .next t → t.fault = some f →
    f.cause = .inputStarvation → s.inq = [] ∧ ∃ m1 m2 m3, decode (s.mem.read s.pc) = .ok (.inp m1 m2 m3)) ∧
  (∀ (m1 m2 m3 : Mode) (s : State), s.status = .running → decode (s.mem.read s.pc) = .ok (.halt m1 m2 m3) →
    ∃ t, step s = .next t ∧ t.status = .halted ∧ t.inq = s.inq)

/-- Raising a fatal condition changes nothing but FAULT, whose record is the one of the state before, and the machine is then
FAULTED; HALTED stays false (60_exceptions.md section 2; the spec's decision D7). -/
def Obligations.FaultEntryIsPrecise : Prop :=
  ∀ s t : State, step s = .next t → t.fault ≠ none →
    (∃ c, t = { s with fault := some (faultRecord c s) }) ∧ t.status = .faulted ∧ t.halted = false ∧ t.pc = s.pc

/-- Codes 1 to 4 are the complete list on this hardware: no step raises code 5 (60_exceptions.md section 1 with the spec's
decision D2, CELL_RANGE all of the integers). -/
def Obligations.CodeFiveNeverOccurs : Prop :=
  ∀ (s t : State) (f : FaultRecord), step s = .next t → t.fault = some f →
    causeCode f.cause ∈ [1, 2, 3, 4]

/-- A step is enabled exactly in RUNNING, and then it has exactly one of three outcomes: it completes, it halts, or it raises
(40_cycle_and_operands.md section 1; 70_reset_and_hazards.md section 4). -/
def Obligations.RunningMachineAlwaysSteps : Prop :=
  ∀ s : State,
    ((∃ t, step s = .next t) ↔ s.status = .running) ∧
    (∀ t, step s = .next t →
      (t.status = .running ∨ t = { s with halted := true } ∨ ∃ f, t = { s with fault := some f }))

/-- HALTED and FAULTED have no step, and a run there changes nothing (10_state.md section 4; that `step` answers a fault outcome
named after the status is this model's choice, log entry 3). -/
def Obligations.NoStepAfterTheEnd : Prop :=
  (∀ s : State, s.fault = none → s.halted = true →
    s.status = .halted ∧ step s = .fault .halted ∧ ∀ n, run n s = s) ∧
  (∀ (s : State) (f : FaultRecord), s.fault = some f →
    s.status = .faulted ∧ step s = .fault (.faulted f) ∧ ∀ n, run n s = s)

/-- What a step does to M, PC, RB, HALTED and FAULT, what it appends to OUTQ and how many entries it takes from INQ depend
only on M, PC, RB and the head of INQ (40_cycle_and_operands.md section 1; 10_state.md section 6). -/
def Obligations.StepDependsOnMemoryPcRbAndInputHead : Prop :=
  ∀ s s' t : State, s'.status = .running → s'.mem = s.mem → s'.pc = s.pc → s'.rb = s.rb → s'.inq.head? = s.inq.head? →
    step s = .next t →
    ∃ t' out k, step s' = .next t' ∧ t'.mem = t.mem ∧ t'.pc = t.pc ∧ t'.rb = t.rb ∧ t'.halted = t.halted ∧
      t'.fault = t.fault ∧ t.outq = s.outq ++ out ∧ t'.outq = s'.outq ++ out ∧
      t.inq = s.inq.drop k ∧ t'.inq = s'.inq.drop k

/-! ## The ten instructions: encoding, result, frame, completion -/

/-- R100: ADD. -/
def Obligations.AddStoresTheSum : Prop :=
  (∀ m1 m2 m3 : Mode,
    decode (10000 * m3.toDigit + 1000 * m2.toDigit + 100 * m1.toDigit + 1) = .ok (.add m1 m2 m3) ∧
    (Instr.add m1 m2 m3).opcode.length = 4) ∧
  ∀ (m1 m2 m3 : Mode) (s : State), ∃ t, exec (.add m1 m2 m3) s = .next t ∧ t.pc = s.pc + 4 ∧
    storesOnly s t (resolve s 3 m3).addr ((resolve s 1 m1).value + (resolve s 2 m2).value) ∧ sameRegisters s t

/-- R101: MUL. -/
def Obligations.MulStoresTheProduct : Prop :=
  (∀ m1 m2 m3 : Mode,
    decode (10000 * m3.toDigit + 1000 * m2.toDigit + 100 * m1.toDigit + 2) = .ok (.mul m1 m2 m3) ∧
    (Instr.mul m1 m2 m3).opcode.length = 4) ∧
  ∀ (m1 m2 m3 : Mode) (s : State), ∃ t, exec (.mul m1 m2 m3) s = .next t ∧ t.pc = s.pc + 4 ∧
    storesOnly s t (resolve s 3 m3).addr ((resolve s 1 m1).value * (resolve s 2 m2).value) ∧ sameRegisters s t

/-- IN with an entry in INQ: the oldest entry is stored and removed and nothing else changes but PC (42_input_output.md, opcode
3; the queue is judged at the instant of execution, the spec's decision D14). -/
def Obligations.InStoresTheOldestInput : Prop :=
  (∀ m1 m2 m3 : Mode,
    decode (10000 * m3.toDigit + 1000 * m2.toDigit + 100 * m1.toDigit + 3) = .ok (.inp m1 m2 m3) ∧
    (Instr.inp m1 m2 m3).opcode.length = 2) ∧
  ∀ (m1 m2 m3 : Mode) (s : State) (v : Int) (rest : List Int), s.inq = v :: rest →
    ∃ t, exec (.inp m1 m2 m3) s = .next t ∧ t.pc = s.pc + 2 ∧ t.inq = rest ∧
      storesOnly s t (resolve s 1 m1).addr v ∧
      t.rb = s.rb ∧ t.outq = s.outq ∧ t.halted = s.halted ∧ t.fault = s.fault

/-- OUT: the value is appended to OUTQ and nothing else changes but PC (42_input_output.md, opcode 4; that OUTQ has no
capacity and OUT never fails is the spec's decision D10). -/
def Obligations.OutAppendsTheValue : Prop :=
  (∀ m1 m2 m3 : Mode,
    decode (10000 * m3.toDigit + 1000 * m2.toDigit + 100 * m1.toDigit + 4) = .ok (.out m1 m2 m3) ∧
    (Instr.out m1 m2 m3).opcode.length = 2) ∧
  ∀ (m1 m2 m3 : Mode) (s : State),
    exec (.out m1 m2 m3) s = .next { s with outq := s.outq ++ [(resolve s 1 m1).value], pc := s.pc + 2 }

/-- R120: JT. -/
def Obligations.JumpIfTrueGoesToTheTarget : Prop :=
  (∀ m1 m2 m3 : Mode,
    decode (10000 * m3.toDigit + 1000 * m2.toDigit + 100 * m1.toDigit + 5) = .ok (.jt m1 m2 m3) ∧
    (Instr.jt m1 m2 m3).opcode.length = 3) ∧
  ∀ (m1 m2 m3 : Mode) (s : State),
    exec (.jt m1 m2 m3) s = .next
      { s with pc := if (resolve s 1 m1).value ≠ 0 then (resolve s 2 m2).value else s.pc + 3 }

/-- R121: JF. -/
def Obligations.JumpIfFalseGoesToTheTarget : Prop :=
  (∀ m1 m2 m3 : Mode,
    decode (10000 * m3.toDigit + 1000 * m2.toDigit + 100 * m1.toDigit + 6) = .ok (.jf m1 m2 m3) ∧
    (Instr.jf m1 m2 m3).opcode.length = 3) ∧
  ∀ (m1 m2 m3 : Mode) (s : State),
    exec (.jf m1 m2 m3) s = .next
      { s with pc := if (resolve s 1 m1).value = 0 then (resolve s 2 m2).value else s.pc + 3 }

/-- R130: LT. -/
def Obligations.LessThanStoresOneOrZero : Prop :=
  (∀ m1 m2 m3 : Mode,
    decode (10000 * m3.toDigit + 1000 * m2.toDigit + 100 * m1.toDigit + 7) = .ok (.lt m1 m2 m3) ∧
    (Instr.lt m1 m2 m3).opcode.length = 4) ∧
  ∀ (m1 m2 m3 : Mode) (s : State), ∃ t, exec (.lt m1 m2 m3) s = .next t ∧ t.pc = s.pc + 4 ∧
    storesOnly s t (resolve s 3 m3).addr (if (resolve s 1 m1).value < (resolve s 2 m2).value then 1 else 0) ∧
    sameRegisters s t

/-- R131: EQ. -/
def Obligations.EqualsStoresOneOrZero : Prop :=
  (∀ m1 m2 m3 : Mode,
    decode (10000 * m3.toDigit + 1000 * m2.toDigit + 100 * m1.toDigit + 8) = .ok (.eq m1 m2 m3) ∧
    (Instr.eq m1 m2 m3).opcode.length = 4) ∧
  ∀ (m1 m2 m3 : Mode) (s : State), ∃ t, exec (.eq m1 m2 m3) s = .next t ∧ t.pc = s.pc + 4 ∧
    storesOnly s t (resolve s 3 m3).addr (if (resolve s 1 m1).value = (resolve s 2 m2).value then 1 else 0) ∧
    sameRegisters s t

/-- R140: ARB, its parameter resolved with the old RB; and adjusting by a and then by b leaves the RB that adjusting once by
a + b leaves. -/
def Obligations.RelativeBaseAdjustmentIsCumulative : Prop :=
  (∀ m1 m2 m3 : Mode,
    decode (10000 * m3.toDigit + 1000 * m2.toDigit + 100 * m1.toDigit + 9) = .ok (.arb m1 m2 m3) ∧
    (Instr.arb m1 m2 m3).opcode.length = 2) ∧
  (∀ (m1 m2 m3 : Mode) (s : State),
    exec (.arb m1 m2 m3) s = .next { s with rb := s.rb + (resolve s 1 m1).value, pc := s.pc + 2 }) ∧
  (∀ (m1 m2 m3 n1 n2 n3 k1 k2 k3 : Mode) (s t u s' t' : State),
    exec (.arb m1 m2 m3) s = .next t → exec (.arb n1 n2 n3) t = .next u →
    exec (.arb k1 k2 k3) s' = .next t' → s'.rb = s.rb →
    (resolve s' 1 k1).value = (resolve s 1 m1).value + (resolve t 1 n1).value → t'.rb = u.rb)

/-- R150: HALT sets HALTED and changes nothing else, and the machine then has no step. -/
def Obligations.HaltStopsTheMachine : Prop :=
  (∀ m1 m2 m3 : Mode,
    decode (10000 * m3.toDigit + 1000 * m2.toDigit + 100 * m1.toDigit + 99) = .ok (.halt m1 m2 m3) ∧
    (Instr.halt m1 m2 m3).opcode.length = 1) ∧
  (∀ (m1 m2 m3 : Mode) (s : State), exec (.halt m1 m2 m3) s = .next { s with halted := true }) ∧
  (∀ (m1 m2 m3 : Mode) (s : State), s.status = .running → decode (s.mem.read s.pc) = .ok (.halt m1 m2 m3) →
    step s = .next { s with halted := true } ∧ { s with halted := true }.status = .halted ∧
    ∀ u, step { s with halted := true } ≠ .next u)

/-! ## Rules of the whole machine -/

/-- R13: how each instruction changes PC. -/
def Obligations.ProgramCounterTable : Prop :=
  ∀ s t : State, step s = .next t →
    (t.fault ≠ none → t.pc = s.pc) ∧
    (t.fault = none → ∃ i, decode (s.mem.read s.pc) = .ok i ∧
      match i with
      | .add _ _ _ | .mul _ _ _ | .lt _ _ _ | .eq _ _ _ => t.pc = s.pc + 4
      | .inp _ _ _ | .out _ _ _ | .arb _ _ _ => t.pc = s.pc + 2
      | .jt m1 m2 _ => t.pc = if (resolve s 1 m1).value ≠ 0 then (resolve s 2 m2).value else s.pc + 3
      | .jf m1 m2 _ => t.pc = if (resolve s 1 m1).value = 0 then (resolve s 2 m2).value else s.pc + 3
      | .halt _ _ _ => t.pc = s.pc)

/-- R26: which instructions write which state. -/
def Obligations.WhoWritesWhichState : Prop :=
  ∀ s t : State, step s = .next t →
    (∀ b, t.mem.read b ≠ s.mem.read b → ∃ m1 m2 m3,
      ((decode (s.mem.read s.pc) = .ok (.add m1 m2 m3) ∨ decode (s.mem.read s.pc) = .ok (.mul m1 m2 m3) ∨
        decode (s.mem.read s.pc) = .ok (.lt m1 m2 m3) ∨ decode (s.mem.read s.pc) = .ok (.eq m1 m2 m3)) ∧
        b = (resolve s 3 m3).addr) ∨
      (decode (s.mem.read s.pc) = .ok (.inp m1 m2 m3) ∧ b = (resolve s 1 m1).addr)) ∧
    (t.pc ≠ s.pc → ∃ i, decode (s.mem.read s.pc) = .ok i ∧ i.opcode ≠ .halt) ∧
    (t.rb ≠ s.rb → ∃ m1 m2 m3, decode (s.mem.read s.pc) = .ok (.arb m1 m2 m3)) ∧
    (t.inq ≠ s.inq → ∃ m1 m2 m3 v, decode (s.mem.read s.pc) = .ok (.inp m1 m2 m3) ∧ s.inq = v :: t.inq) ∧
    (t.outq ≠ s.outq → ∃ m1 m2 m3 v, decode (s.mem.read s.pc) = .ok (.out m1 m2 m3) ∧ t.outq = s.outq ++ [v]) ∧
    (t.halted ≠ s.halted ↔ ∃ m1 m2 m3, decode (s.mem.read s.pc) = .ok (.halt m1 m2 m3)) ∧
    (t.fault ≠ s.fault → t.status = .faulted ∧
      ((∃ c, decode (s.mem.read s.pc) = .error c) ∨
        (s.inq = [] ∧ ∃ m1 m2 m3, decode (s.mem.read s.pc) = .ok (.inp m1 m2 m3))))

/-- Every cell of memory: after an instruction it holds what the instruction stores in it, if it is the cell the instruction
stores to, and otherwise what it held before (20_memory.md sections 2 and 3; 10_state.md section 8). -/
def Obligations.MemoryAfterAnInstruction : Prop :=
  ∀ (i : Instr) (s t : State), exec i s = .next t → ∀ b,
    t.mem.read b =
      match storedCell i s with
      | some (a, v) => if b = a then v else s.mem.read b
      | none => s.mem.read b

/-- A store is seen by the next fetch: where an instruction stores a word to the cell PC then addresses, the next step is
decided by that word, whatever the cell held before; and an instruction that stores over its own cells is executed as it was
fetched (20_memory.md section 3). -/
def Obligations.NextFetchSeesTheStore : Prop :=
  ∀ (i : Instr) (s t : State) (a v : Int), s.status = .running → fetchInstr s = .ok i → storedCell i s = some (a, v) →
    step s = .next t →
    exec i s = .next t ∧
    (t.pc = a → (∀ j, decode v = .ok j → step t = exec j t) ∧ (∀ c, decode v = .error c → step t = .next (takeFault c t))) ∧
    (t.pc ≠ a → fetchWord t = s.mem.read t.pc)

/-- No instruction reads OUTQ: with other output already in the queue, a step does the same (10_state.md section 5). -/
def Obligations.OutputQueueIsNeverRead : Prop :=
  ∀ (s t : State) (q : List Int), step s = .next t →
    step { s with outq := q ++ s.outq } = .next { t with outq := q ++ t.outq }

/-- Input pushed before a step is as good as input pushed after it, unless the step starves; and a step that would starve
stores the pushed entry instead (42_input_output.md, opcode 3; the spec's decision D14). -/
def Obligations.PushedInputCommutesWithStep : Prop :=
  (∀ (s t : State) (v : Int), step s = .next t → t.fault = none → step (s.pushInput v) = .next (t.pushInput v)) ∧
  (∀ (m1 m2 m3 : Mode) (s : State) (v : Int), s.status = .running → decode (s.mem.read s.pc) = .ok (.inp m1 m2 m3) →
    s.inq = [] →
    ∃ t, step (s.pushInput v) = .next t ∧ t.status = .running ∧ t.inq = [] ∧ storesOnly s t (resolve s 1 m1).addr v)

/-- Both queues are first in first out over any run: what was in INQ is what the IN instructions received, in order, followed
by what is still there; and OUTQ is what it held, followed by the values of the OUT instructions in order (42_input_output.md
on queue order). -/
def Obligations.QueuesAreFirstInFirstOut : Prop :=
  ∀ (n : Nat) (s : State),
    s.inq = inputHistory n s ++ (run n s).inq ∧ (run n s).outq = s.outq ++ outputHistory n s

/-- A run goes on from where it was, and once it has ended it stays ended (40_cycle_and_operands.md section 3;
70_reset_and_hazards.md section 2; that a run is bounded by fuel is this model's form, log entry 7). -/
def Obligations.RunEndsForGood : Prop :=
  ∀ (n m : Nat) (s : State), run (n + m) s = run m (run n s) ∧
    ((run n s).status ≠ .running → run (n + m) s = run n s)

/-! ## Memory -/

/-- R42: a read is defined for every address and gives 0 for an address that neither the image nor a write ever set. -/
def Obligations.NeverWrittenCellReadsZero : Prop :=
  ∀ (image : List Int) (writes : List (Int × Int)) (a : Int),
    (a < 0 ∨ (image.length : Int) ≤ a) → (∀ c ∈ writes, c.1 ≠ a) →
    (writes.foldl (fun m c => m.write c.1 c.2) (imageMemory image)).read a = 0

/-- A read gives the value of the most recent write to its address, whatever was written elsewhere since (20_memory.md
section 3). -/
def Obligations.ReadGivesTheLatestWrite : Prop :=
  ∀ (m : Memory) (a v : Int) (later : List (Int × Int)), (∀ c ∈ later, c.1 ≠ a) →
    (later.foldl (fun m c => m.write c.1 c.2) (m.write a v)).read a = v

/-- A write gives its cell the value and leaves every other cell unchanged (20_memory.md section 2). A cell that reads 0 and is
written and then set to 0, or only set to 0, leaves the memory it was, as data: a written 0 cannot be told from a cell never
written; that the two are one list of cells rests on the canonical form, which is this model's choice, log entry 1. -/
def Obligations.WritingZeroLeavesNoTrace : Prop :=
  (∀ (m : Memory) (a b v : Int), (m.write a v).read b = if b = a then v else m.read b) ∧
  (∀ (m : Memory) (a v : Int), m.wf → m.read a = 0 → m.write a 0 = m ∧ (m.write a v).write a 0 = m)

/-- Memories that read the same at every address are the same data (10_state.md section 5; that memory is listed in one
canonical form is this model's choice, log entry 1). -/
def Obligations.MemoriesThatReadTheSameAreEqual : Prop :=
  ∀ m n : Memory, m.wf → n.wf → (∀ a, m.read a = n.read a) → m = n

/-! ## Operand resolution -/

/-- Resolve(k, mode) in each of the three modes (40_cycle_and_operands.md section 2). -/
def Obligations.ResolveInEachMode : Prop :=
  ∀ (s : State) (k : Nat),
    resolve s k .position = ⟨s.mem.read (s.pc + k), s.mem.read (s.mem.read (s.pc + k))⟩ ∧
    resolve s k .immediate = ⟨s.pc + k, s.mem.read (s.pc + k)⟩ ∧
    resolve s k .relative = ⟨s.mem.read (s.pc + k) + s.rb, s.mem.read (s.mem.read (s.pc + k) + s.rb)⟩

/-- Resolution depends on M, PC and RB alone (40_cycle_and_operands.md section 2). -/
def Obligations.ResolutionIsPure : Prop :=
  ∀ (s t : State) (k : Nat) (m : Mode), t.mem = s.mem → t.pc = s.pc → t.rb = s.rb → resolve t k m = resolve s k m

/-- R85: an immediate parameter's value is the raw operand and its address the operand's own cell, so that an instruction that
writes one overwrites its own operand cell and no other cell. -/
def Obligations.ImmediateDestinationIsTheOperandCell : Prop :=
  (∀ (s : State) (k : Nat), resolve s k .immediate = ⟨s.pc + k, s.mem.read (s.pc + k)⟩) ∧
  (∀ (m1 m2 : Mode) (i : Instr) (s : State),
    (i = .add m1 m2 .immediate ∨ i = .mul m1 m2 .immediate ∨ i = .lt m1 m2 .immediate ∨ i = .eq m1 m2 .immediate) →
    ∃ t v, exec i s = .next t ∧ storedCell i s = some (s.pc + 3, v) ∧ storesOnly s t (s.pc + 3) v ∧ t.fault = s.fault) ∧
  (∀ (m2 m3 : Mode) (s : State) (v : Int) (rest : List Int), s.inq = v :: rest →
    ∃ t, exec (.inp .immediate m2 m3) s = .next t ∧ storesOnly s t (s.pc + 1) v ∧ t.fault = s.fault)

/-! ## Reset, the invariant, the host -/

/-- RESET(IMAGE): PC and RB are 0, the machine is RUNNING with empty queues, the image is at addresses 0 to n-1 and every other
cell reads 0; State.reset is the reset of the empty image, whose first step raises code 1 (70_reset_and_hazards.md section 1
and 10_state.md section 7; the values of HALTED, FAULT and the queues are the spec's decision D13, and that State.reset has the
empty image is this model's choice, log entry 5). -/
def Obligations.ResetStateOfAnImage : Prop :=
  (∀ image : List Int,
    (State.resetWith image).pc = 0 ∧ (State.resetWith image).rb = 0 ∧ (State.resetWith image).status = .running ∧
    (State.resetWith image).halted = false ∧ (State.resetWith image).fault = none ∧
    (State.resetWith image).inq = [] ∧ (State.resetWith image).outq = [] ∧
    (∀ (k : Nat) (h : k < image.length), (State.resetWith image).mem.read k = image[k]) ∧
    (∀ a : Int, (a < 0 ∨ (image.length : Int) ≤ a) → (State.resetWith image).mem.read a = 0)) ∧
  State.resetWith [] = State.reset ∧
  step State.reset = .next (State.reset.withRecord ⟨.unknownOpcode, 0, 0, 0, 0⟩)

/-- The invariant holds of the reset state, whatever the image (10_state.md sections 4 and 7). -/
def Obligations.ResetMeetsTheInvariant : Prop :=
  State.reset.Inv ∧ ∀ image : List Int, (State.resetWith image).Inv

/-- Every step keeps the invariant: memory stays in its one form, FAULT and HALTED are never both set, a halted machine has PC
at a HALT word, and a fault record stays the record of the state the machine is in (10_state.md section 4; 46_halt.md;
60_exceptions.md section 2, with the spec's decision D7). -/
def Obligations.EveryStepKeepsTheInvariant : Prop :=
  ∀ s t : State, s.Inv → step s = .next t → t.Inv

/-- Every operation the host is allowed keeps the invariant, RUN and RESET among them (70_reset_and_hazards.md section 2; which
operations there are and when is the spec's decision D11). -/
def Obligations.EveryHostOperationKeepsTheInvariant : Prop :=
  ∀ (op : HostOp) (x y : Session) (reply : Reply), x.machine.Inv → hostApply op x = some (y, reply) → y.machine.Inv

/-- When each host operation is allowed (70_reset_and_hazards.md section 2, the spec's decision D11). -/
def Obligations.HostOperationsAllowedExactlyWhen : Prop :=
  ∀ (op : HostOp) (x : Session), (∃ y reply, hostApply op x = some (y, reply)) ↔
    match op with
    | .reset _ | .popOutput | .peek _ | .readStatus => True
    | .poke _ _ => x.machine.status = .running ∧ x.stepped = false
    | .pushInput _ | .step | .run _ => x.machine.status = .running

/-- The effect and the answer of each host operation (70_reset_and_hazards.md section 2, the spec's decision D11). Two things are
this model's choice: RUN takes a bound, here at least 1, on its steps and may leave the machine RUNNING (log entry 7), and that a
step has been executed since reset and what the host has popped are kept in the record Session (log entry 6). -/
def Obligations.HostOperationEffects : Prop :=
  ∀ x : Session,
    (∀ image, hostApply (.reset image) x = some (⟨State.resetWith image, false, []⟩, .done)) ∧
    (∀ a v, x.machine.status = .running → x.stepped = false →
      hostApply (.poke a v) x = some (⟨{ x.machine with mem := x.machine.mem.write a v }, false, x.popped⟩, .done)) ∧
    (∀ v, x.machine.status = .running →
      hostApply (.pushInput v) x = some (⟨{ x.machine with inq := x.machine.inq ++ [v] }, x.stepped, x.popped⟩, .done)) ∧
    (∀ t, step x.machine = .next t → hostApply .step x = some (⟨t, true, x.popped⟩, .done)) ∧
    (∀ n, x.machine.status = .running → ∃ y, hostApply (.run (n + 1)) x = some (y, .done) ∧
      y.machine = run (n + 1) x.machine ∧ y.stepped = true ∧ y.popped = x.popped) ∧
    (x.machine.outq = [] → hostApply .popOutput x = some (x, .output none)) ∧
    (∀ v rest, x.machine.outq = v :: rest →
      hostApply .popOutput x = some (⟨{ x.machine with outq := rest }, x.stepped, x.popped ++ [v]⟩, .output (some v))) ∧
    (∀ a, hostApply (.peek a) x = some (x, .cell (x.machine.mem.read a))) ∧
    (hostApply .readStatus x = some (x, .status x.machine.status x.machine.pc x.machine.rb x.machine.fault
      x.machine.inq.length x.machine.outq.length))

/-- The boot order of a host: RESET, patches of cells, pushes of input; all of it is allowed and leaves the image patched and
the input queued in the order pushed (70_reset_and_hazards.md sections 1 and 2, the spec's decision D11). -/
def Obligations.BootSequenceLeavesPatchedImageAndQueuedInput : Prop :=
  ∀ (x : Session) (image : List Int) (patches : List (Int × Int)) (inputs : List Int),
    hostApplyAll (.reset image :: (patches.map (fun c => HostOp.poke c.1 c.2) ++ inputs.map HostOp.pushInput)) x =
      some ⟨{ State.resetWith image with
        mem := patches.foldl (fun m c => m.write c.1 c.2) (imageMemory image), inq := inputs }, false, []⟩

/-- No output is lost: over every host operation but RESET the output history (everything popped, then OUTQ) only grows at its
end, and POP_OUTPUT leaves it as it was; and once a run is over, no operation but RESET and POP_OUTPUT changes the instance, and
none but RESET changes the run's result (42_input_output.md on queue order; 70_reset_and_hazards.md section 2, the spec's
decisions D11 and D16). -/
def Obligations.OutputHistoryOnlyGrows : Prop :=
  ∀ (op : HostOp) (x y : Session) (reply : Reply), hostApply op x = some (y, reply) → (∀ image, op ≠ .reset image) →
    (x.outputs <+: y.outputs) ∧ (op = .popOutput → y.outputs = x.outputs) ∧
    (∀ result, runResult x = some result → runResult y = some result ∧ (op ≠ .popOutput → y = x))

/-- RUN_TO_IO is a choice of how many steps to issue. Exactly when it gives each answer, and where it leaves the machine: it
issues steps while the machine is RUNNING, does not want input and the next instruction is not OUT; in front of an instruction
that wants input it answers `needsInput` with no step issued for it, an OUT is the last step it issues, and it answers
`producedOutput` right behind that step, and where the machine is not RUNNING it answers the status. `outOfFuel` is this
model's own answer (log entry 7): all n steps were issued and another would be. OUTQ grows by one entry behind an OUT and
otherwise not at all (70_reset_and_hazards.md section 2, the spec's decision D15). -/
def Obligations.RunToIoIssuesSteps : Prop :=
  ∀ (n : Nat) (s t : State),
    (runToIo n s = (t, .needsInput) ↔ ∃ k, k ≤ n ∧ passesIo k s ∧ t = run k s ∧ wantsInput t) ∧
    (runToIo n s = (t, .producedOutput) ↔
      ∃ k, k < n ∧ passesIo k s ∧ executesOut (run k s) ∧ t = run (k + 1) s) ∧
    (∀ st, runToIo n s = (t, .ended st) ↔ ∃ k, k ≤ n ∧ passesIo k s ∧ t = run k s ∧ t.status = st ∧ st ≠ .running) ∧
    (runToIo n s = (t, .outOfFuel) ↔ passesIo n s ∧ t = run n s ∧ t.status = .running ∧ ¬ wantsInput t) ∧
    (∀ reply, runToIo n s = (t, reply) →
      (reply = .producedOutput → ∃ v, t.outq = s.outq ++ [v]) ∧ (reply ≠ .producedOutput → t.outq = s.outq))

/-! ## A finite CELL_RANGE (the spec's own rule in 41_arithmetic.md, its decision D2) -/

/-- This hardware is the machine whose cell range is all of the integers (00_scope.md section 4, the spec's decision D2). -/
def Obligations.UnboundedRangeIsThisHardware : Prop :=
  ∀ (i : Instr) (s : State) (n : Nat), execWithin .all i s = exec i s ∧ stepWithin .all s = step s ∧
    runWithin .all n s = run n s

/-- With any cell range an instruction does what it does on this hardware or raises code 5 and changes nothing else; it never
wraps, truncates or saturates (41_arithmetic.md, the spec's decision D2). -/
def Obligations.FiniteRangeCompletesOrFaults : Prop :=
  ∀ (r : CellRange) (i : Instr) (s : State),
    execWithin r i s = exec i s ∨
      execWithin r i s = .next { s with fault := some (faultRecord .cellRange s) }

/-- With a cell range that holds the state: an instruction whose operand cells, effective addresses, stored value, new PC and
new RB lie in the range does what it does on this hardware; one of which one of them lies outside raises code 5; and an IN on
an empty queue raises code 4, wherever its addresses lie, because starvation is checked before the range (41_arithmetic.md;
60_exceptions.md section 1; the spec's decisions D2 and D12; that operand cells count among the addresses is this model's
choice, log entry 8). -/
def Obligations.LeavingTheRangeFaults : Prop :=
  ∀ (r : CellRange) (i : Instr) (s t : State), s.Within r → exec i s = .next t →
    (i.opcode = .inp → s.inq = [] →
      execWithin r i s = .next { s with fault := some (faultRecord .inputStarvation s) }) ∧
    ((i.opcode = .inp → s.inq ≠ []) →
      ((∀ p ∈ usedParams i, inRange r (s.pc + p.1) = true ∧ inRange r (resolve s p.1 p.2).addr = true) ∧
        (∀ a v, storedCell i s = some (a, v) → inRange r v = true) ∧ inRange r t.pc = true ∧ inRange r t.rb = true) →
      execWithin r i s = .next t) ∧
    ((i.opcode = .inp → s.inq ≠ []) →
      ((∃ p ∈ usedParams i, inRange r (s.pc + p.1) = false ∨ inRange r (resolve s p.1 p.2).addr = false) ∨
        (∃ a v, storedCell i s = some (a, v) ∧ inRange r v = false) ∨ inRange r t.pc = false ∨ inRange r t.rb = false) →
      execWithin r i s = .next { s with fault := some (faultRecord .cellRange s) })

/-- The order of the checks on any cell range: a word that does not decode raises what it raises on this hardware, a word that
decodes is executed under the range, an IN that starves raises code 4 there and never code 5, and outside RUNNING there is no
step (60_exceptions.md section 1 and 41_arithmetic.md; the spec's decisions D2 and D12). -/
def Obligations.FiniteRangeChecksInOrder : Prop :=
  ∀ (r : CellRange) (s : State),
    (s.status = .running → ∀ c, decode (s.mem.read s.pc) = .error c →
      stepWithin r s = .next (s.withRecord (faultRecord c s)) ∧ stepWithin r s = step s) ∧
    (s.status = .running → ∀ i, decode (s.mem.read s.pc) = .ok i → stepWithin r s = execWithin r i s) ∧
    (s.status = .running → s.inq = [] → ∀ m1 m2 m3, decode (s.mem.read s.pc) = .ok (.inp m1 m2 m3) →
      stepWithin r s = .next (s.withRecord ⟨.inputStarvation, s.mem.read s.pc, 3, s.pc, s.rb⟩)) ∧
    (s.status ≠ .running → ∀ t, stepWithin r s ≠ .next t)

/-- Every step of a machine with a finite cell range keeps every integer it holds in the range (41_arithmetic.md, the spec's
decision D2). -/
def Obligations.EveryStepStaysInTheRange : Prop :=
  ∀ (r : CellRange) (s t : State), r.wf = true → s.Within r → stepWithin r s = .next t → t.Within r

/-- Every operation a host is allowed on such a machine keeps every integer it holds in the range (41_arithmetic.md, the spec's
decisions D2 and D11). For RESET this rests on a choice of this model, log entry 8: a host is allowed an image only if the
addresses it fills lie in the range too, and not only its integers. -/
def Obligations.EveryHostOperationStaysInTheRange : Prop :=
  ∀ (r : CellRange) (op : HostOp) (x y : Session) (reply : Reply), r.wf = true → x.machine.Within r →
    hostApplyWithin r op x = some (y, reply) → y.machine.Within r
end

