-- ==== Sys2Proof/Laws/State.lean ====
section
/-!
SUPPORT. Laws/State.lean: one lemma per field per update of the state, each true by unfolding, so that no later proof unfolds
a record update.
-/

namespace Sys2Proof.Machine

@[simp] theorem State.setHalted_pc (s : State) : (s.setHalted).pc = s.pc := rfl
@[simp] theorem State.setHalted_rb (s : State) : (s.setHalted).rb = s.rb := rfl
@[simp] theorem State.setHalted_mem (s : State) : (s.setHalted).mem = s.mem := rfl
@[simp] theorem State.setHalted_halted (s : State) : (s.setHalted).halted = true := rfl
@[simp] theorem State.setHalted_fault (s : State) : (s.setHalted).fault = s.fault := rfl
@[simp] theorem State.setHalted_inq (s : State) : (s.setHalted).inq = s.inq := rfl
@[simp] theorem State.setHalted_outq (s : State) : (s.setHalted).outq = s.outq := rfl

@[simp] theorem State.setPc_pc (s : State) (t : Int) : (s.setPc t).pc = t := rfl
@[simp] theorem State.setPc_rb (s : State) (t : Int) : (s.setPc t).rb = s.rb := rfl
@[simp] theorem State.setPc_mem (s : State) (t : Int) : (s.setPc t).mem = s.mem := rfl
@[simp] theorem State.setPc_halted (s : State) (t : Int) : (s.setPc t).halted = s.halted := rfl
@[simp] theorem State.setPc_fault (s : State) (t : Int) : (s.setPc t).fault = s.fault := rfl
@[simp] theorem State.setPc_inq (s : State) (t : Int) : (s.setPc t).inq = s.inq := rfl
@[simp] theorem State.setPc_outq (s : State) (t : Int) : (s.setPc t).outq = s.outq := rfl

@[simp] theorem State.advance_pc (s : State) (n : Nat) : (s.advance n).pc = s.pc + n := rfl
@[simp] theorem State.advance_rb (s : State) (n : Nat) : (s.advance n).rb = s.rb := rfl
@[simp] theorem State.advance_mem (s : State) (n : Nat) : (s.advance n).mem = s.mem := rfl
@[simp] theorem State.advance_halted (s : State) (n : Nat) : (s.advance n).halted = s.halted := rfl
@[simp] theorem State.advance_fault (s : State) (n : Nat) : (s.advance n).fault = s.fault := rfl
@[simp] theorem State.advance_inq (s : State) (n : Nat) : (s.advance n).inq = s.inq := rfl
@[simp] theorem State.advance_outq (s : State) (n : Nat) : (s.advance n).outq = s.outq := rfl

@[simp] theorem State.setRb_pc (s : State) (v : Int) : (s.setRb v).pc = s.pc := rfl
@[simp] theorem State.setRb_rb (s : State) (v : Int) : (s.setRb v).rb = v := rfl
@[simp] theorem State.setRb_mem (s : State) (v : Int) : (s.setRb v).mem = s.mem := rfl
@[simp] theorem State.setRb_halted (s : State) (v : Int) : (s.setRb v).halted = s.halted := rfl
@[simp] theorem State.setRb_fault (s : State) (v : Int) : (s.setRb v).fault = s.fault := rfl
@[simp] theorem State.setRb_inq (s : State) (v : Int) : (s.setRb v).inq = s.inq := rfl
@[simp] theorem State.setRb_outq (s : State) (v : Int) : (s.setRb v).outq = s.outq := rfl

@[simp] theorem State.writeMem_pc (s : State) (a : Int) (v : Int) : (s.writeMem a v).pc = s.pc := rfl
@[simp] theorem State.writeMem_rb (s : State) (a : Int) (v : Int) : (s.writeMem a v).rb = s.rb := rfl
@[simp] theorem State.writeMem_mem (s : State) (a : Int) (v : Int) : (s.writeMem a v).mem = s.mem.write a v := rfl
@[simp] theorem State.writeMem_halted (s : State) (a : Int) (v : Int) : (s.writeMem a v).halted = s.halted := rfl
@[simp] theorem State.writeMem_fault (s : State) (a : Int) (v : Int) : (s.writeMem a v).fault = s.fault := rfl
@[simp] theorem State.writeMem_inq (s : State) (a : Int) (v : Int) : (s.writeMem a v).inq = s.inq := rfl
@[simp] theorem State.writeMem_outq (s : State) (a : Int) (v : Int) : (s.writeMem a v).outq = s.outq := rfl

@[simp] theorem State.setInq_pc (s : State) (rest : List Int) : (s.setInq rest).pc = s.pc := rfl
@[simp] theorem State.setInq_rb (s : State) (rest : List Int) : (s.setInq rest).rb = s.rb := rfl
@[simp] theorem State.setInq_mem (s : State) (rest : List Int) : (s.setInq rest).mem = s.mem := rfl
@[simp] theorem State.setInq_halted (s : State) (rest : List Int) : (s.setInq rest).halted = s.halted := rfl
@[simp] theorem State.setInq_fault (s : State) (rest : List Int) : (s.setInq rest).fault = s.fault := rfl
@[simp] theorem State.setInq_inq (s : State) (rest : List Int) : (s.setInq rest).inq = rest := rfl
@[simp] theorem State.setInq_outq (s : State) (rest : List Int) : (s.setInq rest).outq = s.outq := rfl

@[simp] theorem State.pushInput_pc (s : State) (v : Int) : (s.pushInput v).pc = s.pc := rfl
@[simp] theorem State.pushInput_rb (s : State) (v : Int) : (s.pushInput v).rb = s.rb := rfl
@[simp] theorem State.pushInput_mem (s : State) (v : Int) : (s.pushInput v).mem = s.mem := rfl
@[simp] theorem State.pushInput_halted (s : State) (v : Int) : (s.pushInput v).halted = s.halted := rfl
@[simp] theorem State.pushInput_fault (s : State) (v : Int) : (s.pushInput v).fault = s.fault := rfl
@[simp] theorem State.pushInput_inq (s : State) (v : Int) : (s.pushInput v).inq = s.inq ++ [v] := rfl
@[simp] theorem State.pushInput_outq (s : State) (v : Int) : (s.pushInput v).outq = s.outq := rfl

@[simp] theorem State.emit_pc (s : State) (v : Int) : (s.emit v).pc = s.pc := rfl
@[simp] theorem State.emit_rb (s : State) (v : Int) : (s.emit v).rb = s.rb := rfl
@[simp] theorem State.emit_mem (s : State) (v : Int) : (s.emit v).mem = s.mem := rfl
@[simp] theorem State.emit_halted (s : State) (v : Int) : (s.emit v).halted = s.halted := rfl
@[simp] theorem State.emit_fault (s : State) (v : Int) : (s.emit v).fault = s.fault := rfl
@[simp] theorem State.emit_inq (s : State) (v : Int) : (s.emit v).inq = s.inq := rfl
@[simp] theorem State.emit_outq (s : State) (v : Int) : (s.emit v).outq = s.outq ++ [v] := rfl

@[simp] theorem takeFault_pc (c : Cause) (s : State) : (takeFault c s).pc = s.pc := rfl
@[simp] theorem takeFault_rb (c : Cause) (s : State) : (takeFault c s).rb = s.rb := rfl
@[simp] theorem takeFault_mem (c : Cause) (s : State) : (takeFault c s).mem = s.mem := rfl
@[simp] theorem takeFault_halted (c : Cause) (s : State) : (takeFault c s).halted = s.halted := rfl
@[simp] theorem takeFault_fault (c : Cause) (s : State) : (takeFault c s).fault = some (faultRecord c s) := rfl
@[simp] theorem takeFault_inq (c : Cause) (s : State) : (takeFault c s).inq = s.inq := rfl
@[simp] theorem takeFault_outq (c : Cause) (s : State) : (takeFault c s).outq = s.outq := rfl

@[simp] theorem State.resetWith_pc (image : List Int) : (State.resetWith image).pc = 0 := rfl
@[simp] theorem State.resetWith_rb (image : List Int) : (State.resetWith image).rb = 0 := rfl
@[simp] theorem State.resetWith_mem (image : List Int) : (State.resetWith image).mem = imageMemory image := rfl
@[simp] theorem State.resetWith_halted (image : List Int) : (State.resetWith image).halted = false := rfl
@[simp] theorem State.resetWith_fault (image : List Int) : (State.resetWith image).fault = none := rfl
@[simp] theorem State.resetWith_inq (image : List Int) : (State.resetWith image).inq = [] := rfl
@[simp] theorem State.resetWith_outq (image : List Int) : (State.resetWith image).outq = [] := rfl

/-- RESET of the empty image is the reset state. -/
theorem State.resetWith_nil : State.resetWith [] = State.reset := rfl

end Sys2Proof.Machine
end

