-- ==== Sys2Proof/Laws/Memory.lean ====
section
/-!
SUPPORT. Laws/Memory.lean: what a read gives after a write, and that every memory operation keeps the one form in which a
memory is listed.
-/

namespace Sys2Proof.Machine

theorem readCells_insertCell (a b v : Int) (cs : List MemCell) :
    readCells b (insertCell a v cs) = if b = a then v else readCells b cs := by
  induction cs with
  | nil => simp [insertCell, readCells, eq_comm]
  | cons c rest ih =>
    unfold insertCell
    split
    · simp [readCells, eq_comm]
    · split
      · rename_i heq
        by_cases h : b = a
        · simp [readCells, h]
        · simp [readCells, h, ← heq, Ne.symm h]
      · by_cases hc : c.1 = b
        · have h : ¬ b = a := by omega
          simp [readCells, hc, h]
        · simp [readCells, hc, ih]

theorem readCells_filter (a b : Int) (cs : List MemCell) :
    readCells b (cs.filter (fun c => decide (c.1 ≠ a))) = if b = a then 0 else readCells b cs := by
  induction cs with
  | nil => simp [readCells]
  | cons c rest ih =>
    by_cases hc : c.1 = a
    · by_cases hb : b = a
      · simpa [hc, hb] using ih
      · simpa [hc, hb, readCells, Ne.symm hb] using ih
    · by_cases hb : c.1 = b
      · have h : ¬ b = a := by omega
        simp [readCells, hb, h]
      · simpa [hc, readCells, hb] using ih

/-- A write gives its cell the value and leaves every other cell alone (20_memory.md R43). -/
theorem Memory.read_write (m : Memory) (a b : Int) (v : Int) :
    (m.write a v).read b = if b = a then v else m.read b := by
  unfold Memory.write Memory.read
  by_cases h : v = 0
  · rw [if_pos h, h]; exact readCells_filter a b m.cells
  · rw [if_neg h]; exact readCells_insertCell a b v m.cells

theorem insertCell_mem {a : Int} {v : Int} {c : MemCell} {cs : List MemCell} (h : c ∈ insertCell a v cs) :
    c = (a, v) ∨ c ∈ cs := by
  induction cs with
  | nil => simpa [insertCell] using h
  | cons d rest ih =>
    unfold insertCell at h
    split at h
    · simpa using h
    · split at h
      · rcases List.mem_cons.1 h with h | h
        · exact .inl h
        · exact .inr (List.mem_cons_of_mem _ h)
      · rcases List.mem_cons.1 h with h | h
        · exact .inr (h ▸ List.mem_cons_self)
        · exact (ih h).imp id (List.mem_cons_of_mem _)

theorem insertCell_pairwise (a : Int) (v : Int) {cs : List MemCell}
    (h : cs.Pairwise (fun c d => c.1 < d.1)) : (insertCell a v cs).Pairwise (fun c d => c.1 < d.1) := by
  induction cs with
  | nil => simp [insertCell]
  | cons c rest ih =>
    obtain ⟨hc, hr⟩ := List.pairwise_cons.1 h
    unfold insertCell
    split
    · rename_i hlt
      refine List.pairwise_cons.2 ⟨fun d hd => ?_, h⟩
      rcases List.mem_cons.1 hd with rfl | hd
      · exact hlt
      · exact lt_trans hlt (hc d hd)
    · split
      · rename_i heq
        exact List.pairwise_cons.2 ⟨fun d hd => by simpa [heq] using hc d hd, hr⟩
      · rename_i hlt hne
        refine List.pairwise_cons.2 ⟨fun d hd => ?_, ih hr⟩
        rcases insertCell_mem hd with rfl | hd
        · simp only; omega
        · exact hc d hd

theorem Memory.empty_wf : (⟨[]⟩ : Memory).wf := by simp [Memory.wf]

/-- A write keeps the one form of a memory. -/
theorem Memory.write_wf {m : Memory} (h : m.wf) (a : Int) (v : Int) : (m.write a v).wf := by
  unfold Memory.write
  by_cases hv : v = 0
  · rw [if_pos hv]
    exact ⟨h.1.sublist List.filter_sublist, fun c hc => h.2 c (List.mem_of_mem_filter hc)⟩
  · rw [if_neg hv]
    refine ⟨insertCell_pairwise a v h.1, fun c hc => ?_⟩
    rcases insertCell_mem hc with rfl | hc
    · exact hv
    · exact h.2 c hc

/-- Loading a list keeps the one form of a memory. -/
theorem Memory.loadAt_wf {m : Memory} (h : m.wf) (a : Int) (vs : List Int) : (m.loadAt a vs).wf := by
  induction vs generalizing m a with
  | nil => exact h
  | cons v rest ih => exact ih (Memory.write_wf h a v) (a + 1)

/-- An image is loaded in the one form of a memory. -/
theorem imageMemory_wf (image : List Int) : (imageMemory image).wf :=
  Memory.loadAt_wf Memory.empty_wf 0 image

/-- The reset state's memory is in its one form. -/
theorem State.reset_mem_wf : State.reset.mem.wf := Memory.empty_wf

/-- The entries of a memory after a write are the one written and entries there before. -/
theorem Memory.write_mem {m : Memory} {a : Int} {v : Int} {c : MemCell} (h : c ∈ (m.write a v).cells) :
    c = (a, v) ∨ c ∈ m.cells := by
  unfold Memory.write at h
  split at h
  · exact .inr (List.mem_of_mem_filter h)
  · exact insertCell_mem h

/-- What is read is what an unlisted cell holds or a listed entry's content. -/
theorem Memory.read_mem (m : Memory) (a : Int) : m.read a = 0 ∨ (a, m.read a) ∈ m.cells := by
  unfold Memory.read
  generalize m.cells = cs
  induction cs with
  | nil => exact .inl rfl
  | cons c rest ih =>
    by_cases h : c.1 = a
    · right; simp [readCells, h]; left; ext <;> simp [h]
    · simpa [readCells, h] using ih.imp id .inr

end Sys2Proof.Machine
end

