-- ==== Sys2Proof/Laws/Ops.lean ====
section
/-!
SUPPORT. Laws/Ops.lean: one lemma for each shared operation that says all it can do: the status, the end of an instruction,
the store, the jump, and the decoder's range check.
-/

namespace Sys2Proof.Machine

/-- A machine is RUNNING exactly when it has neither faulted nor halted (10_state.md R17). -/
theorem State.status_running_iff (s : State) : s.status = .running ↔ s.fault = none ∧ s.halted = false := by
  unfold State.status
  cases s.fault <;> cases s.halted <;> simp

/-- A step is enabled exactly in RUNNING (40_cycle_and_operands.md R80). -/
theorem stopReason_eq_none_iff (s : State) : stopReason s = none ↔ s.status = .running := by
  unfold State.status stopReason
  cases s.fault <;> cases s.halted <;> simp

/-- No status is left without a reason for stopping, and the reason is the status. -/
theorem stopReason_cases (s : State) :
    (s.status = .running ∧ stopReason s = none) ∨ (s.status = .halted ∧ stopReason s = some .halted) ∨
      (∃ f, s.status = .faulted ∧ s.fault = some f ∧ stopReason s = some (.faulted f)) := by
  unfold State.status stopReason
  cases s.fault <;> cases s.halted <;> simp

@[simp] theorem inRange_all (v : Int) : inRange .all v = true := rfl

/-- An instruction either ends as its rule says or raises code 5 (41_arithmetic.md R103). -/
theorem completeWithin_cases (r : CellRange) (formed : List Int) (s t : State) :
    ((∀ v ∈ formed, inRange r v = true) ∧ completeWithin r formed s t = .next t) ∨
      ((∃ v ∈ formed, inRange r v = false) ∧ completeWithin r formed s t = .next (takeFault .cellRange s)) := by
  unfold completeWithin
  cases h : formed.all (inRange r)
  · exact .inr ⟨by simpa using h, by simp⟩
  · exact .inl ⟨by simpa using h, by simp⟩

/-- On this hardware nothing leaves the range. -/
@[simp] theorem completeWithin_all (formed : List Int) (s t : State) :
    completeWithin .all formed s t = .next t := by
  rcases completeWithin_cases .all formed s t with ⟨-, h⟩ | ⟨⟨v, -, h⟩, -⟩
  · exact h
  · simp at h

/-- The three-parameter store on this hardware. -/
theorem storeBinary_all (f : Int → Int → Int) (m1 m2 m3 : Mode) (s : State) :
    storeBinary .all f m1 m2 m3 s =
      .next ((s.writeMem (resolve s 3 m3).addr (f (resolve s 1 m1).value (resolve s 2 m2).value)).advance 4) :=
  completeWithin_all _ _ _

/-- The conditional jump on this hardware. -/
theorem jumpWhen_all (cond : Int → Bool) (m1 m2 : Mode) (s : State) :
    jumpWhen .all cond m1 m2 s =
      .next (s.setPc (if cond (resolve s 1 m1).value then (resolve s 2 m2).value else s.pc + 3)) :=
  completeWithin_all _ _ _

/-- IN on an empty queue, whatever the range (60_exceptions.md R164, R166). -/
theorem inWithin_nil (r : CellRange) (m1 m2 m3 : Mode) (s : State) (h : s.inq = []) :
    inWithin r m1 m2 m3 s = .next (takeFault .inputStarvation s) := by
  unfold inWithin; rw [h]

/-- IN on a queue that holds an entry, on this hardware. -/
theorem inWithin_all_cons (m1 m2 m3 : Mode) (s : State) (v : Int) (rest : List Int) (h : s.inq = v :: rest) :
    inWithin .all m1 m2 m3 s =
      .next (((s.setInq rest).writeMem (resolve s 1 m1).addr v).advance 2) := by
  unfold inWithin; rw [h]; exact completeWithin_all _ _ _

/-- OUT on this hardware. -/
theorem outWithin_all (m1 m2 m3 : Mode) (s : State) :
    outWithin .all m1 m2 m3 s = .next ((s.emit (resolve s 1 m1).value).advance 2) :=
  completeWithin_all _ _ _

/-- ARB on this hardware. -/
theorem arbWithin_all (m1 m2 m3 : Mode) (s : State) :
    arbWithin .all m1 m2 m3 s = .next ((s.setRb (s.rb + (resolve s 1 m1).value)).advance 2) :=
  completeWithin_all _ _ _

/-- A word that decodes lies in 0..99999, and its fields decode (30_encoding.md R62, R68). -/
theorem decode_ok_iff (w : Int) (i : Instr) :
    decode w = .ok i ↔ (0 ≤ w ∧ w ≤ 99999) ∧ decodeFields (fieldsOf w.toNat) = .ok i := by
  unfold decode
  split
  · rename_i h; simp; omega
  · rename_i h
    exact ⟨fun hd => ⟨by omega, hd⟩, fun hd => hd.2⟩

end Sys2Proof.Machine
end

