-- ==== Sys2Proof/Laws/Step.lean ====
section
/-!
SUPPORT. Laws/Step.lean: what a step can do, said once, and the first steps of a run.
-/

namespace Sys2Proof.Machine

/-- A step that answers a next state ran in RUNNING, and either raised what Decode raised or executed what Decode gave. -/
theorem step_cases {s t : State} (h : step s = .next t) :
    s.status = .running ∧
      ((∃ c, fetchInstr s = .error c ∧ t = takeFault c s) ∨ ∃ i, fetchInstr s = .ok i ∧ exec i s = .next t) := by
  unfold step at h
  split at h
  · cases h
  · rename_i hs
    refine ⟨(stopReason_eq_none_iff s).1 hs, ?_⟩
    split at h
    · rename_i c hc; cases h; exact .inl ⟨c, hc, rfl⟩
    · rename_i i hi; exact .inr ⟨i, hi, h⟩

/-- The same for a machine with a cell range. -/
theorem stepWithin_cases {r : CellRange} {s t : State} (h : stepWithin r s = .next t) :
    s.status = .running ∧
      ((∃ c, fetchInstr s = .error c ∧ t = takeFault c s) ∨
        ∃ i, fetchInstr s = .ok i ∧ execWithin r i s = .next t) := by
  unfold stepWithin at h
  split at h
  · cases h
  · rename_i hs
    refine ⟨(stopReason_eq_none_iff s).1 hs, ?_⟩
    split at h
    · rename_i c hc; cases h; exact .inl ⟨c, hc, rfl⟩
    · rename_i i hi; exact .inr ⟨i, hi, h⟩

theorem runBy_zero (stepOf : State → StepOutcome) (s : State) : runBy stepOf 0 s = s := rfl

theorem runBy_succ_next {stepOf : State → StepOutcome} {s t : State} (h : stepOf s = .next t) (n : Nat) :
    runBy stepOf (n + 1) s = runBy stepOf n t := by simp [runBy, h]

theorem runBy_succ_stop {stepOf : State → StepOutcome} {s : State} (h : ∀ t, stepOf s ≠ .next t) (n : Nat) :
    runBy stepOf n s = s := by
  cases n with
  | zero => rfl
  | succ n =>
    unfold runBy
    split
    · rename_i t ht; exact absurd ht (h t)
    · rfl
    · rfl

/-- A run of n + 1 steps is one step and then a run of n. -/
theorem run_succ (n : Nat) (s : State) : run (n + 1) s = run n (run 1 s) := by
  by_cases h : ∃ t, step s = .next t
  · obtain ⟨t, ht⟩ := h
    rw [run, run, run, runBy_succ_next ht, runBy_succ_next ht, runBy_zero]
  · have hs : ∀ t, step s ≠ .next t := fun t ht => h ⟨t, ht⟩
    rw [run, run, run, runBy_succ_stop hs, runBy_succ_stop hs, runBy_succ_stop hs]

end Sys2Proof.Machine
end

