-- ==== Sys2Proof/Laws/Exec.lean ====
section
/-!
SUPPORT. Laws/Exec.lean: one lemma for each meaning that says what it answers, in the named updates of the state, so that no
later proof unfolds a meaning or the range check under it.
-/

namespace Sys2Proof.Machine

theorem exec_add (m1 m2 m3 : Mode) (s : State) :
    exec (.add m1 m2 m3) s =
      .next ((s.writeMem (resolve s 3 m3).addr ((resolve s 1 m1).value + (resolve s 2 m2).value)).advance 4) :=
  storeBinary_all _ m1 m2 m3 s

theorem exec_mul (m1 m2 m3 : Mode) (s : State) :
    exec (.mul m1 m2 m3) s =
      .next ((s.writeMem (resolve s 3 m3).addr ((resolve s 1 m1).value * (resolve s 2 m2).value)).advance 4) :=
  storeBinary_all _ m1 m2 m3 s

theorem exec_lt (m1 m2 m3 : Mode) (s : State) :
    exec (.lt m1 m2 m3) s =
      .next ((s.writeMem (resolve s 3 m3).addr
        (if (resolve s 1 m1).value < (resolve s 2 m2).value then 1 else 0)).advance 4) :=
  storeBinary_all _ m1 m2 m3 s

theorem exec_eq (m1 m2 m3 : Mode) (s : State) :
    exec (.eq m1 m2 m3) s =
      .next ((s.writeMem (resolve s 3 m3).addr
        (if (resolve s 1 m1).value = (resolve s 2 m2).value then 1 else 0)).advance 4) :=
  storeBinary_all _ m1 m2 m3 s

theorem exec_inp_nil (m1 m2 m3 : Mode) (s : State) (h : s.inq = []) :
    exec (.inp m1 m2 m3) s = .next (takeFault .inputStarvation s) :=
  inWithin_nil .all m1 m2 m3 s h

theorem exec_inp_cons (m1 m2 m3 : Mode) (s : State) (v : Int) (rest : List Int) (h : s.inq = v :: rest) :
    exec (.inp m1 m2 m3) s = .next (((s.setInq rest).writeMem (resolve s 1 m1).addr v).advance 2) :=
  inWithin_all_cons m1 m2 m3 s v rest h

theorem exec_out (m1 m2 m3 : Mode) (s : State) :
    exec (.out m1 m2 m3) s = .next ((s.emit (resolve s 1 m1).value).advance 2) :=
  outWithin_all m1 m2 m3 s

theorem exec_jt (m1 m2 m3 : Mode) (s : State) :
    exec (.jt m1 m2 m3) s =
      .next (s.setPc (if (resolve s 1 m1).value ≠ 0 then (resolve s 2 m2).value else s.pc + 3)) := by
  rw [show exec (.jt m1 m2 m3) s = _ from jumpWhen_all (fun v => decide (v ≠ 0)) m1 m2 s]
  simp only [decide_eq_true_eq]

theorem exec_jf (m1 m2 m3 : Mode) (s : State) :
    exec (.jf m1 m2 m3) s =
      .next (s.setPc (if (resolve s 1 m1).value = 0 then (resolve s 2 m2).value else s.pc + 3)) := by
  rw [show exec (.jf m1 m2 m3) s = _ from jumpWhen_all (fun v => decide (v = 0)) m1 m2 s]
  simp only [decide_eq_true_eq]

theorem exec_arb (m1 m2 m3 : Mode) (s : State) :
    exec (.arb m1 m2 m3) s = .next ((s.setRb (s.rb + (resolve s 1 m1).value)).advance 2) :=
  arbWithin_all m1 m2 m3 s

theorem exec_halt (m1 m2 m3 : Mode) (s : State) : exec (.halt m1 m2 m3) s = .next s.setHalted := rfl

end Sys2Proof.Machine
end

