-- ==== Sys2Proof/Laws/HostOps.lean ====
section
/-!
SUPPORT. Laws/HostOps.lean: what RUN_TO_IO looks at, in the spec's words (70_reset_and_hazards.md R189).
-/

namespace Sys2Proof.Machine

theorem awaitsInput_iff (s : State) (hr : s.status = .running) : awaitsInput s = true ↔ wantsInput s := by
  simp only [awaitsInput, Bool.and_eq_true, decide_eq_true_eq, List.isEmpty_iff]
  simp only [wantsInput, fetchWord, hr, and_assoc, true_and]

/-- RUN_TO_IO returns without a further step exactly where the machine wants input or is not RUNNING. -/
theorem ioPause_eq_some_iff (s : State) (reason : IoStop) :
    ioPause s = some reason ↔
      (reason = .needsInput ∧ wantsInput s) ∨ (reason = .ended s.status ∧ s.status ≠ .running) := by
  by_cases hr : s.status = .running
  · by_cases hw : awaitsInput s = true
    · rw [ioPause, if_neg (not_not.2 hr), if_pos hw, Option.some.injEq, eq_comm]
      simp [hr, (awaitsInput_iff s hr).1 hw]
    · rw [ioPause, if_neg (not_not.2 hr), if_neg hw]
      simp [hr, mt (awaitsInput_iff s hr).2 hw]
  · rw [ioPause, if_pos hr, Option.some.injEq, eq_comm]
    simp [hr, wantsInput]

theorem ioPause_eq_none_iff (s : State) : ioPause s = none ↔ s.status = .running ∧ ¬ wantsInput s := by
  rw [Option.eq_none_iff_forall_ne_some]
  simp only [ne_eq, ioPause_eq_some_iff]
  constructor
  · intro h
    exact ⟨by by_contra hr; exact h _ (.inr ⟨rfl, hr⟩), fun hw => h _ (.inl ⟨rfl, hw⟩)⟩
  · rintro ⟨hr, hw⟩ reason (⟨-, h⟩ | ⟨-, h⟩)
    · exact hw h
    · exact h hr

/-- The next step appends to OUTQ exactly where it executes OUT. -/
theorem nextOutput_eq_nil_iff (s : State) : nextOutput s = [] ↔ ¬ executesOut s := by
  unfold nextOutput executesOut
  split
  · rename_i h1 h2
    simpa using ⟨(stopReason_eq_none_iff s).1 h1, _, _, _, h2⟩
  · rename_i h
    simp only [true_iff]
    rintro ⟨hr, m1, m2, m3, hd⟩
    exact h _ _ _ ((stopReason_eq_none_iff s).2 hr) hd

end Sys2Proof.Machine
end

