-- ==== Sys2Proof/Laws/PerInstr.lean ====
section
/-!
SUPPORT. Laws/PerInstr.lean: facts of every instruction, one lemma per constructor. The family EncodesLegally says that the
fields of an instruction pass the check on fields and that its word is in the range of a legal word (30_encoding.md R62, R64).
-/

namespace Sys2Proof.Laws.EncodesLegally

/-- The fields of the instruction are well formed and its word lies in 0..99999. -/
def Statement (i : Instr) : Prop := i.fields.wf = true ∧ 0 ≤ encode i ∧ encode i ≤ 99999

theorem add (m1 m2 m3 : Mode) : Statement (.add m1 m2 m3) := by
  cases m1 <;> cases m2 <;> cases m3 <;> unfold Statement <;> decide

theorem mul (m1 m2 m3 : Mode) : Statement (.mul m1 m2 m3) := by
  cases m1 <;> cases m2 <;> cases m3 <;> unfold Statement <;> decide

theorem inp (m1 m2 m3 : Mode) : Statement (.inp m1 m2 m3) := by
  cases m1 <;> cases m2 <;> cases m3 <;> unfold Statement <;> decide

theorem out (m1 m2 m3 : Mode) : Statement (.out m1 m2 m3) := by
  cases m1 <;> cases m2 <;> cases m3 <;> unfold Statement <;> decide

theorem jt (m1 m2 m3 : Mode) : Statement (.jt m1 m2 m3) := by
  cases m1 <;> cases m2 <;> cases m3 <;> unfold Statement <;> decide

theorem jf (m1 m2 m3 : Mode) : Statement (.jf m1 m2 m3) := by
  cases m1 <;> cases m2 <;> cases m3 <;> unfold Statement <;> decide

theorem lt (m1 m2 m3 : Mode) : Statement (.lt m1 m2 m3) := by
  cases m1 <;> cases m2 <;> cases m3 <;> unfold Statement <;> decide

theorem eq (m1 m2 m3 : Mode) : Statement (.eq m1 m2 m3) := by
  cases m1 <;> cases m2 <;> cases m3 <;> unfold Statement <;> decide

theorem arb (m1 m2 m3 : Mode) : Statement (.arb m1 m2 m3) := by
  cases m1 <;> cases m2 <;> cases m3 <;> unfold Statement <;> decide

theorem halt (m1 m2 m3 : Mode) : Statement (.halt m1 m2 m3) := by
  cases m1 <;> cases m2 <;> cases m3 <;> unfold Statement <;> decide

end Sys2Proof.Laws.EncodesLegally
end

