-- ==== Sys2Proof/Tests/Slice0.lean ====
section
/-!
SUPPORT. Tests/Slice0.lean: small tests, each with its expected result taken from spec/ (the vector or rule is named), and for
each statement with hypotheses a state and operands that meet them.
-/

namespace Sys2Proof.Tests

open Sys2Proof.Machine

/-- A RUNNING machine with this image, input queue and RB. -/
def boot (image inputs : List Int) (rb : Int) : State := { State.resetWith image with inq := inputs, rb := rb }

/-- The next state of an outcome. -/
def after (o : StepOutcome) : Option State :=
  match o with
  | .next t => some t
  | .fault _ => none
  | .refused _ => none

/-- PC, RB, one cell, INQ, OUTQ, HALTED and FAULT. -/
structure Seen where
  pc     : Int
  rb     : Int
  cell   : Int
  inq    : List Int
  outq   : List Int
  halted : Bool
  fault  : Option FaultRecord
  deriving DecidableEq

/-- What one step from a state leaves, the cell being the one at a. -/
def see (a : Int) (s : State) : Option Seen :=
  (after (step s)).map (fun t => ⟨t.pc, t.rb, t.mem.read a, t.inq, t.outq, t.halted, t.fault⟩)

/-! ## Well-formedness: an ill-formed term for each check -/

theorem test_fields_wf : (⟨0, 1, 0, 2⟩ : Fields).wf = true := by decide
theorem test_fields_wf_refuses_opcode_zero : (⟨0, 0, 0, 0⟩ : Fields).wf = false := by decide
theorem test_fields_wf_refuses_opcode_98 : (⟨0, 0, 0, 98⟩ : Fields).wf = false := by decide
theorem test_fields_wf_refuses_mode1 : (⟨0, 0, 3, 1⟩ : Fields).wf = false := by decide
theorem test_fields_wf_refuses_mode2 : (⟨0, 3, 0, 3⟩ : Fields).wf = false := by decide
theorem test_fields_wf_refuses_mode3 : (⟨3, 0, 0, 1⟩ : Fields).wf = false := by decide
theorem test_canonical_refuses_in : (Instr.inp .relative .position .relative).canonical = false := by decide
theorem test_canonical_refuses_jt : (Instr.jt .position .position .immediate).canonical = false := by decide
theorem test_canonical_refuses_halt : (Instr.halt .immediate .position .position).canonical = false := by decide
theorem test_canonical_accepts_add : (Instr.add .relative .relative .relative).canonical = true := by decide
theorem test_asm_wf_refuses_missing_operand : (AsmLine.instr .out []).wf = false := by decide
theorem test_asm_wf_refuses_extra_operand : (AsmLine.instr .halt [⟨.position, 0⟩]).wf = false := by decide
theorem test_range_wf_refuses_low : (CellRange.between 1 9).wf = false := by decide
theorem test_range_wf_refuses_high : (CellRange.between (-9) (-1)).wf = false := by decide

/-! ## Decoding: words of 95_test_vectors.md 2.1 and 30_encoding.md R61, R64, R68, at least one for each opcode -/

theorem test_decode_add : decode 1 = .ok (.add .position .position .position) := rfl
theorem test_decode_add_immediate : decode 11101 = .ok (.add .immediate .immediate .immediate) := rfl
theorem test_decode_mul : decode 1002 = .ok (.mul .position .immediate .position) := rfl
theorem test_decode_in : decode 20203 = .ok (.inp .relative .position .relative) := rfl
theorem test_decode_out : decode 204 = .ok (.out .relative .position .position) := rfl
theorem test_decode_jt : decode 2105 = .ok (.jt .immediate .relative .position) := rfl
theorem test_decode_jf : decode 1006 = .ok (.jf .position .immediate .position) := rfl
theorem test_decode_lt : decode 21107 = .ok (.lt .immediate .immediate .relative) := rfl
theorem test_decode_eq : decode 1008 = .ok (.eq .position .immediate .position) := rfl
theorem test_decode_arb : decode 209 = .ok (.arb .relative .position .position) := rfl
theorem test_decode_halt : decode 99 = .ok (.halt .position .position .position) := rfl
theorem test_decode_halt_highest_legal : decode 22299 = .ok (.halt .relative .relative .relative) := rfl
theorem test_decode_zero : decode 0 = .error .unknownOpcode := rfl
theorem test_decode_opcode_before_mode : decode 30000 = .error .unknownOpcode := rfl
theorem test_decode_bad_mode1 : decode 301 = .error .badMode := rfl
theorem test_decode_bad_mode_of_absent_parameter : decode 3003 = .error .badMode := rfl
theorem test_decode_highest_in_range : decode 99999 = .error .badMode := rfl
theorem test_decode_lowest_above_range : decode 100000 = .error .wordRange := rfl
theorem test_decode_six_digits : decode 100001 = .error .wordRange := rfl
theorem test_decode_negative : decode (-1) = .error .wordRange := rfl

/-- 30_encoding.md R69: ADD 4, #3, @-1 assembles to 21001, 4, 3, -1. -/
theorem test_assemble_add :
    assemble (.instr .add [⟨.position, 4⟩, ⟨.immediate, 3⟩, ⟨.relative, -1⟩]) = [21001, 4, 3, -1] := by decide

/-- The same line as it is written. -/
theorem test_asm_text_add :
    asmText (.instr .add [⟨.position, 4⟩, ⟨.immediate, 3⟩, ⟨.relative, -1⟩]) = "ADD 4, #3, @-1" := by decide +kernel
theorem test_asm_text_halt : asmText (.instr .halt []) = "HALT" := by decide +kernel

/-- Every instruction, for the counts below. -/
def allInstrs : List Instr :=
  let modes : List Mode := [.position, .immediate, .relative]
  let ops : List Opcode := [.add, .mul, .inp, .out, .jt, .jf, .lt, .eq, .arb, .halt]
  ops.flatMap (fun op => modes.flatMap (fun a => modes.flatMap (fun b => modes.map (fun c => op.instr a b c))))

/-- 30_encoding.md R64, R71: 270 legal words, 136 of them canonical. -/
theorem test_word_counts : allInstrs.length = 270 ∧ (allInstrs.filter (·.canonical)).length = 136 := by decide +kernel

/-- The opcode table's word of OUT, its bits above the first byte 0. -/
theorem test_table_word_out : decodeTableWord 8 4 = some (.out .position .position .position) := rfl

/-- The word placed is the one the next step runs. -/
theorem test_withFetchWord_runs :
    (after (step (State.reset.withFetchWord 24 104))).map (fun t => (t.pc, t.outq)) = some (2, [0]) := by decide

/-! ## Memory (20_memory.md R42 to R44) -/

theorem test_write_keeps_one_form :
    (((⟨[]⟩ : Memory).write 5 1).write (-7) 12).write 5 0 = (⟨[(-7, 12)]⟩ : Memory) := by decide
theorem test_negative_address : ((⟨[]⟩ : Memory).write (-7) 12).read (-7) = 12 := by decide
theorem test_unordered_memory_is_not_wf : ¬ (⟨[(3, 1), (2, 1)]⟩ : Memory).wf := by decide
theorem test_listed_zero_is_not_wf : ¬ (⟨[(3, 0)]⟩ : Memory).wf := by decide

/-! ## Operand resolution (95_test_vectors.md 2.2) -/

theorem test_resolve_position : resolve (boot [1002, 4, 3, 4, 33] [] 0) 1 .position = ⟨4, 33⟩ := by decide
theorem test_resolve_immediate : resolve (boot [1002, 4, 3, 4, 33] [] 0) 2 .immediate = ⟨2, 3⟩ := by decide
theorem test_resolve_relative :
    resolve { boot [109, 0, 0, -1] [] 1 with pc := 2 } 1 .relative = ⟨0, 109⟩ := by decide

/-! ## One step of each instruction (95_test_vectors.md 2.3 to 2.9; the vector's name stands in the theorem's) -/

theorem test_add_A3 : see 0 (boot [1, 0, 0, 0] [] 0) = some ⟨4, 0, 2, [], [], false, none⟩ := by decide
theorem test_add_A4 : see (-2) (boot [21101, 3, 4, -12] [] 10) = some ⟨4, 10, 7, [], [], false, none⟩ := by decide
theorem test_mul_M1 : see 4 (boot [1002, 4, 3, 4, 33] [] 0) = some ⟨4, 0, 99, [], [], false, none⟩ := by decide
theorem test_mul_M6 :
    see 5 (boot [1102, 4294967296, 4294967296, 5] [] 0) = some ⟨4, 0, 18446744073709551616, [], [], false, none⟩ := by
  decide
theorem test_in_I3 : see (-6) (boot [203, 4] [9, 8] (-10)) = some ⟨2, -10, 9, [8], [], false, none⟩ := by decide
theorem test_in_I8 :
    see 0 (boot [20203, 0] [] 0) =
      some ⟨0, 0, 20203, [], [], false, some ⟨.inputStarvation, 20203, 3, 0, 0⟩⟩ := by decide
theorem test_out_O1 : see 0 (boot [4, 0] [] 0) = some ⟨2, 0, 4, [], [4], false, none⟩ := by decide
theorem test_out_O3 : see 2 (boot [204, 1, 55] [] 1) = some ⟨2, 1, 55, [], [55], false, none⟩ := by decide
theorem test_jt_J4 : see 0 (boot [1105, -1, -4] [] 0) = some ⟨-4, 0, 1105, [], [], false, none⟩ := by decide
theorem test_jt_J6 : see 0 (boot [5, 9, 0] [] 0) = some ⟨3, 0, 5, [], [], false, none⟩ := by decide
theorem test_jf_K2 : see 0 (boot [1106, 5, 7] [] 0) = some ⟨3, 0, 1106, [], [], false, none⟩ := by decide
theorem test_jf_K3 : see 0 (boot [6, 9, 0] [] 0) = some ⟨6, 0, 6, [], [], false, none⟩ := by decide
theorem test_lt_L4 : see 5 (boot [1107, -5, 3, 5] [] 0) = some ⟨4, 0, 1, [], [], false, none⟩ := by decide
theorem test_lt_L3 :
    see 5 (boot [1107, 3, 3, 5, 0, 9] [] 0) = some ⟨4, 0, 0, [], [], false, none⟩ := by decide
theorem test_eq_E3 : see 5 (boot [8, 77, 78, 5] [] 0) = some ⟨4, 0, 1, [], [], false, none⟩ := by decide
theorem test_eq_E6 : see 3 (boot [11108, 0, 0, 5] [] 0) = some ⟨4, 0, 1, [], [], false, none⟩ := by decide
theorem test_arb_R4 :
    see 0 (boot [209, 2, 0, 0, 0, 11] [] 3) = some ⟨2, 14, 209, [], [], false, none⟩ := by decide
theorem test_arb_R2 : see 0 (boot [109, -5] [] 1) = some ⟨2, -4, 109, [], [], false, none⟩ := by decide
theorem test_halt_H6 : see 0 (boot [99, 1, 2, 3] [1, 2] 4) = some ⟨0, 4, 99, [1, 2], [], true, none⟩ := by decide
theorem test_halt_H4 :
    see 0 (boot [399] [] 0) = some ⟨0, 0, 399, [], [], false, some ⟨.badMode, 399, 99, 0, 0⟩⟩ := by decide

/-- F1: the empty image, which is State.reset. -/
theorem test_fatal_F1 :
    see 0 State.reset = some ⟨0, 0, 0, [], [], false, some ⟨.unknownOpcode, 0, 0, 0, 0⟩⟩ := by decide
/-- The full records of 95_test_vectors.md 2.1 for a negative word and a word of six digits. -/
theorem test_fatal_negative_word :
    see 0 (boot [-1] [] 0) = some ⟨0, 0, -1, [], [], false, some ⟨.wordRange, -1, -1, 0, 0⟩⟩ := by decide
theorem test_fatal_six_digit_word :
    see 0 (boot [100001] [] 0) = some ⟨0, 0, 100001, [], [], false, some ⟨.wordRange, 100001, 100001, 0, 0⟩⟩ := by
  decide
/-- After H1 a further step is not enabled. -/
theorem test_no_step_after_halt : step { boot [99] [] 0 with halted := true } = .fault .halted := rfl

/-! ## The host (95_test_vectors.md 2.10) -/

/-- T3: two values pushed, one consumed; the pops return 7 and then none. -/
theorem test_host_T3 :
    (hostApplyAll [.reset [3, 0, 4, 0, 99], .pushInput 7, .pushInput 8, .run 9] (Session.fresh [])).map
      (fun x => (x.machine.status, (hostApply .popOutput x).map (·.2), x.machine.inq)) =
      some (.halted, some (.output (some 7)), [8]) := by decide
/-- T1: the patch before the run is allowed; after a step it is not (R184). -/
theorem test_host_T1 :
    (hostApplyAll [.reset [1, 0, 0, 0, 99], .poke 0 2, .run 9] (Session.fresh [])).map
      (fun x => (x.machine.status, x.machine.pc, x.machine.mem.read 0)) = some (.halted, 4, 4) := by decide
theorem test_host_no_poke_after_a_step :
    hostApplyAll [.reset [104, 1, 99], .step, .poke 0 2] (Session.fresh []) = none := by decide
/-- T2: input is not taken by a machine that has faulted. -/
theorem test_host_T2 : hostApplyAll [.reset [3, 0, 4, 0, 99], .step, .pushInput 7] (Session.fresh []) = none := by decide

/-! ## A finite range (41_arithmetic.md R103) -/

theorem test_range_sum_leaves_it :
    (after (stepWithin (.between (-2000) 2000) (boot [1101, 2000, 1, 5] [] 0))).map (fun t => (t.pc, t.mem.read 5, t.fault)) =
      some (0, 0, some ⟨.cellRange, 1101, 1, 0, 0⟩) := by decide
theorem test_range_sum_at_its_end :
    (after (stepWithin (.between (-2000) 2000) (boot [1101, 1999, 1, 5] [] 0))).map (fun t => (t.pc, t.mem.read 5, t.fault)) =
      some (4, 2000, none) := by decide

/-! ## Hypotheses that can be met: one theorem for each statement that has some -/

theorem test_witness_LengthIsFixedByOpcode :
    (∃ t, step (boot [1, 0, 0, 0] [] 0) = .next t ∧ t.fault = none) ∧
    fetchInstr (boot [1, 0, 0, 0] [] 0) = .ok (.add .position .position .position) ∧
    (∃ t, step (boot [1105, 0, 7] [] 0) = .next t ∧ t.fault = none) ∧
    fetchInstr (boot [1105, 0, 7] [] 0) = .ok (.jt .immediate .immediate .position) ∧
    (resolve (boot [1105, 0, 7] [] 0) 1 .immediate).value = 0 ∧
    (∃ t, step (boot [1106, 5, 7] [] 0) = .next t ∧ t.fault = none) ∧
    fetchInstr (boot [1106, 5, 7] [] 0) = .ok (.jf .immediate .immediate .position) ∧
    (resolve (boot [1106, 5, 7] [] 0) 1 .immediate).value ≠ 0 :=
  ⟨⟨_, rfl, rfl⟩, rfl, ⟨_, rfl, rfl⟩, rfl, by decide, ⟨_, rfl, rfl⟩, rfl, by decide⟩

theorem test_witness_AssembledLineIsCanonical :
    (AsmLine.instr .halt []).wf = true ∧ (AsmLine.instr .arb [⟨.relative, -1⟩]).wf = true ∧
    (AsmLine.instr .jt [⟨.immediate, 1⟩, ⟨.position, 0⟩]).wf = true ∧
    (AsmLine.instr .add [⟨.position, 4⟩, ⟨.immediate, 3⟩, ⟨.relative, -1⟩]).wf = true := by decide

theorem test_witness_StepRunsDecodedInstruction :
    (boot [1, 0, 0, 0] [] 0).status = .running ∧
    decode ((boot [1, 0, 0, 0] [] 0).mem.read (boot [1, 0, 0, 0] [] 0).pc) = .ok (.add .position .position .position) :=
  ⟨by decide, rfl⟩

theorem test_witness_UnknownOpcodeFaults : ∀ w ∈ ([0, 10, 98, 99998] : List Int),
    (boot [w] [] 0).status = .running ∧ (boot [w] [] 0).mem.read (boot [w] [] 0).pc = w ∧ 0 ≤ w ∧ w ≤ 99999 ∧
      w % 100 ∉ ([1, 2, 3, 4, 5, 6, 7, 8, 9, 99] : List Int) := by decide

theorem test_witness_BadModeFaults : ∀ w ∈ ([301, 3003, 30001, 99999] : List Int),
    (boot [w] [] 0).status = .running ∧ (boot [w] [] 0).mem.read (boot [w] [] 0).pc = w ∧ 0 ≤ w ∧ w ≤ 99999 ∧
      w % 100 ∈ ([1, 2, 3, 4, 5, 6, 7, 8, 9, 99] : List Int) ∧
      (2 < w / 100 % 10 ∨ 2 < w / 1000 % 10 ∨ 2 < w / 10000 % 10) := by decide

theorem test_witness_WordOutOfRangeFaults : ∀ w ∈ ([-1, 100000] : List Int),
    (boot [w] [] 0).status = .running ∧ (boot [w] [] 0).mem.read (boot [w] [] 0).pc = w ∧ (w < 0 ∨ 99999 < w) := by decide

theorem test_witness_InputStarvationFaults :
    ((boot [3, 0] [] 0).status = .running ∧ (boot [3, 0] [] 0).inq = [] ∧
      decode ((boot [3, 0] [] 0).mem.read (boot [3, 0] [] 0).pc) = .ok (.inp .position .position .position)) ∧
    (∃ t f, step (boot [3, 0] [] 0) = .next t ∧ t.fault = some f ∧ f.cause = .inputStarvation) ∧
    ((boot [99] [5] 0).status = .running ∧
      decode ((boot [99] [5] 0).mem.read (boot [99] [5] 0).pc) = .ok (.halt .position .position .position)) :=
  ⟨⟨by decide, rfl, rfl⟩, ⟨_, _, rfl, rfl, rfl⟩, by decide, rfl⟩

theorem test_witness_FaultEntryIsPrecise : ∃ t, step State.reset = .next t ∧ t.fault ≠ none :=
  ⟨_, rfl, by decide⟩

theorem test_witness_CodeFiveNeverOccurs : ∃ t f, step State.reset = .next t ∧ t.fault = some f :=
  ⟨_, _, rfl, rfl⟩

theorem test_witness_RunningMachineAlwaysSteps :
    (∃ t, step (boot [104, 1] [] 0) = .next t ∧ t.status = .running) ∧
    (∃ t, step (boot [99] [] 0) = .next t ∧ t.status = .halted) ∧
    (∃ t, step (boot [] [] 0) = .next t ∧ t.status = .faulted) :=
  ⟨⟨_, rfl, by decide⟩, ⟨_, rfl, by decide⟩, ⟨_, rfl, by decide⟩⟩

theorem test_witness_NoStepAfterTheEnd :
    (∃ s : State, s.fault = none ∧ s.halted = true) ∧ (∃ (s : State) (f : FaultRecord), s.fault = some f) :=
  ⟨⟨{ boot [99] [] 0 with halted := true }, rfl, rfl⟩, takeFault .unknownOpcode State.reset, _, rfl⟩

theorem test_witness_StepDependsOnMemoryPcRbAndInputHead :
    ∃ s s' t : State, s'.status = .running ∧ s'.mem = s.mem ∧ s'.pc = s.pc ∧ s'.rb = s.rb ∧
      s'.inq.head? = s.inq.head? ∧ step s = .next t ∧ s'.inq ≠ s.inq ∧ s'.outq ≠ s.outq :=
  ⟨boot [3, 0] [7] 0, { boot [3, 0] [7, 8] 0 with outq := [1] }, _, by decide, rfl, rfl, rfl, rfl, rfl, by decide, by decide⟩

theorem test_witness_InStoresTheOldestInput : (boot [203, 4] [9, 8] 0).inq = 9 :: [8] := rfl

theorem test_witness_RelativeBaseAdjustmentIsCumulative :
    ∃ s t u s' t' : State, exec (.arb .immediate .position .position) s = .next t ∧
      exec (.arb .immediate .position .position) t = .next u ∧
      exec (.arb .immediate .position .position) s' = .next t' ∧ s'.rb = s.rb ∧
      (resolve s' 1 .immediate).value = (resolve s 1 .immediate).value + (resolve t 1 .immediate).value :=
  ⟨boot [109, 19, 109, -30] [] 0, _, _, boot [109, -11] [] 0, _, rfl, rfl, rfl, rfl, by decide⟩

theorem test_witness_HaltStopsTheMachine :
    (boot [199] [] 0).status = .running ∧
    decode ((boot [199] [] 0).mem.read (boot [199] [] 0).pc) = .ok (.halt .immediate .position .position) :=
  ⟨by decide, rfl⟩

theorem test_witness_ProgramCounterTable :
    (∃ t, step State.reset = .next t ∧ t.fault ≠ none) ∧ (∃ t, step (boot [104, 1] [] 0) = .next t ∧ t.fault = none) :=
  ⟨⟨_, rfl, by decide⟩, _, rfl, rfl⟩

/-- Each component is written by some step: the cell 0, PC, RB, INQ, OUTQ, HALTED, FAULT in turn. -/
theorem test_witness_WhoWritesWhichState :
    (∃ t, step (boot [1, 0, 0, 0] [] 0) = .next t ∧ t.mem.read 0 ≠ (boot [1, 0, 0, 0] [] 0).mem.read 0 ∧
      t.pc ≠ (boot [1, 0, 0, 0] [] 0).pc) ∧
    (∃ t, step (boot [109, 1] [] 0) = .next t ∧ t.rb ≠ (boot [109, 1] [] 0).rb) ∧
    (∃ t, step (boot [3, 0] [7] 0) = .next t ∧ t.inq ≠ (boot [3, 0] [7] 0).inq) ∧
    (∃ t, step (boot [104, 1] [] 0) = .next t ∧ t.outq ≠ (boot [104, 1] [] 0).outq) ∧
    (∃ t, step (boot [99] [] 0) = .next t ∧ t.halted ≠ (boot [99] [] 0).halted) ∧
    (∃ t, step State.reset = .next t ∧ t.fault ≠ State.reset.fault) :=
  ⟨⟨_, rfl, by decide, by decide⟩, ⟨_, rfl, by decide⟩, ⟨_, rfl, by decide⟩, ⟨_, rfl, by decide⟩, ⟨_, rfl, by decide⟩,
    _, rfl, by decide⟩

theorem test_witness_MemoryAfterAnInstruction :
    (∃ t, exec (.add .position .position .position) (boot [1, 0, 0, 0] [] 0) = .next t) ∧
    (∃ t, exec (.inp .position .position .position) (boot [3, 0] [] 0) = .next t) ∧
    (∃ t, exec (.out .position .position .position) (boot [4, 0] [] 0) = .next t) :=
  ⟨⟨_, rfl⟩, ⟨_, rfl⟩, _, rfl⟩

/-- P5, the word stored is the next instruction's; a word stored that does not decode; and a store elsewhere. -/
theorem test_witness_NextFetchSeesTheStore :
    (∃ t, step (boot [1101, 50, 49, 4, 0] [] 0) = .next t ∧ t.pc = 4) ∧
    storedCell (.add .immediate .immediate .position) (boot [1101, 50, 49, 4, 0] [] 0) = some (4, 99) ∧
    decode 99 = .ok (.halt .position .position .position) ∧
    storedCell (.add .immediate .immediate .position) (boot [1101, 50, 48, 4, 99] [] 0) = some (4, 98) ∧
    decode 98 = .error .unknownOpcode ∧
    (∃ t, step (boot [1101, 50, 49, 5, 0] [] 0) = .next t ∧ t.pc ≠ 5) ∧
    storedCell (.add .immediate .immediate .position) (boot [1101, 50, 49, 5, 0] [] 0) = some (5, 99) :=
  ⟨⟨_, rfl, by decide⟩, by decide, rfl, by decide, rfl, ⟨_, rfl, by decide⟩, by decide⟩

theorem test_witness_OutputQueueIsNeverRead : ∃ t, step (boot [104, 1] [] 0) = .next t := ⟨_, rfl⟩

theorem test_witness_PushedInputCommutesWithStep :
    (∃ t, step (boot [3, 0] [7] 0) = .next t ∧ t.fault = none) ∧
    ((boot [3, 0] [] 0).status = .running ∧ (boot [3, 0] [] 0).inq = [] ∧
      decode ((boot [3, 0] [] 0).mem.read (boot [3, 0] [] 0).pc) = .ok (.inp .position .position .position)) :=
  ⟨⟨_, rfl, rfl⟩, by decide, rfl, rfl⟩

theorem test_witness_RunEndsForGood : (run 1 (boot [99] [] 0)).status ≠ .running := by decide

theorem test_witness_NeverWrittenCellReadsZero :
    ((-1 : Int) < 0 ∧ ∀ c ∈ ([(5, 1)] : List (Int × Int)), c.1 ≠ -1) ∧
    ((([99] : List Int).length : Int) ≤ 1 ∧ ∀ c ∈ ([(5, 1)] : List (Int × Int)), c.1 ≠ 1) := by decide

theorem test_witness_ReadGivesTheLatestWrite : ∀ c ∈ ([(5, 1), (-1, 0)] : List (Int × Int)), c.1 ≠ 4 := by decide

theorem test_witness_WritingZeroLeavesNoTrace :
    (⟨[(2, 7)]⟩ : Memory).wf ∧ (⟨[(2, 7)]⟩ : Memory).read 3 = 0 := by decide

theorem test_witness_MemoriesThatReadTheSameAreEqual :
    ∃ m n : Memory, m.wf ∧ n.wf ∧ (∀ a, m.read a = n.read a) ∧ m.read 0 = 99 :=
  ⟨imageMemory [99], imageMemory [99, 0], by decide, by decide, fun _ => rfl, by decide⟩

theorem test_witness_ResolutionIsPure :
    ∃ s t : State, t.mem = s.mem ∧ t.pc = s.pc ∧ t.rb = s.rb ∧ t ≠ s :=
  ⟨boot [1, 0] [] 0, boot [1, 0] [5] 0, rfl, rfl, rfl, by decide⟩

theorem test_witness_ImmediateDestinationIsTheOperandCell :
    ∃ i : Instr, i = .add .position .immediate .immediate ∧ (boot [103, 0] [-5] 0).inq = -5 :: [] :=
  ⟨_, rfl, rfl⟩

theorem test_witness_ResetStateOfAnImage :
    (0 < ([99, 5] : List Int).length ∧ 1 < ([99, 5] : List Int).length) ∧ (-1 : Int) < 0 ∧
    (([99, 5] : List Int).length : Int) ≤ 2 := by decide

/-- The invariant is met by a running, a halted and a faulted state. -/
theorem test_witness_EveryStepKeepsTheInvariant :
    State.reset.Inv ∧ (takeFault .unknownOpcode State.reset).Inv ∧ { boot [99] [] 0 with halted := true }.Inv ∧
    ∃ t, step State.reset = .next t := by
  refine ⟨⟨by decide, by decide, fun h => absurd h (by decide), fun f hf => by cases hf⟩,
    ⟨by decide, by decide, fun h => absurd h (by decide), ?_⟩,
    ⟨by decide, by decide, fun _ => ⟨.position, .position, .position, rfl⟩, fun f hf => by cases hf⟩,
    _, rfl⟩
  rintro f hf
  cases hf
  exact ⟨rfl, rfl⟩

theorem test_witness_EveryHostOperationKeepsTheInvariant :
    (Session.fresh []).machine.Inv ∧ ∃ y reply, hostApply .step (Session.fresh []) = some (y, reply) :=
  ⟨⟨by decide, by decide, fun h => absurd h (by decide), fun f hf => by cases hf⟩, _, _, rfl⟩

theorem test_witness_HostOperationEffects :
    (Session.fresh [104, 1, 99]).machine.status = .running ∧ (Session.fresh [104, 1, 99]).stepped = false ∧
    (∃ t, step (Session.fresh [104, 1, 99]).machine = .next t) ∧ (Session.fresh [104, 1, 99]).machine.outq = [] ∧
    (∃ x : Session, x.machine.outq = 1 :: []) :=
  ⟨by decide, rfl, ⟨_, rfl⟩, rfl, ⟨{ boot [99] [] 0 with outq := [1] }, true, []⟩, rfl⟩

/-- A running instance, and one whose run is over with output still queued. -/
theorem test_witness_OutputHistoryOnlyGrows :
    (∃ y reply, hostApply .step (Session.fresh [104, 1, 99]) = some (y, reply)) ∧
    (∃ (x y : Session) (reply : Reply) (result : RunResult), hostApply .popOutput x = some (y, reply) ∧
      runResult x = some result ∧ x.machine.outq ≠ []) :=
  ⟨⟨_, _, rfl⟩, ⟨{ boot [99] [] 0 with halted := true, outq := [1] }, true, []⟩, _, _, _, rfl, rfl, by decide⟩

/-- One state for each answer of R189, the bound met exactly, and the bound met where another step would be issued. -/
theorem test_witness_RunToIoIssuesSteps :
    runToIo 3 (boot [109, 1, 3, 0] [] 0) = (run 1 (boot [109, 1, 3, 0] [] 0), .needsInput) ∧
    runToIo 0 (boot [22203, 0] [] 0) = (boot [22203, 0] [] 0, .needsInput) ∧
    runToIo 2 (boot [109, 1, 104, 7] [] 0) = (run 2 (boot [109, 1, 104, 7] [] 0), .producedOutput) ∧
    (runToIo 2 (boot [109, 1, 99] [] 0)).2 = .ended .halted ∧ (runToIo 2 (boot [109, 1, 98] [] 0)).2 = .ended .faulted ∧
    runToIo 1 (boot [109, 1, 104, 7] [] 0) = (run 1 (boot [109, 1, 104, 7] [] 0), .outOfFuel) := by
  decide

/-- States within -2000 to 2000: a sum in range, a sum out of range, an effective address out of range, and the same address
of an IN that starves. -/
theorem test_witness_LeavingTheRangeFaults :
    ∃ s u v w : State, s.Within (.between (-2000) 2000) ∧ u.Within (.between (-2000) 2000) ∧ v.Within (.between (-2000) 2000) ∧
      (∃ t, exec (.add .immediate .immediate .position) s = .next t ∧ inRange (.between (-2000) 2000) t.pc = true ∧
        inRange (.between (-2000) 2000) t.rb = true) ∧
      storedCell (.add .immediate .immediate .position) s = some (5, 2000) ∧
      (∀ p ∈ usedParams (.add .immediate .immediate .position),
        inRange (.between (-2000) 2000) (s.pc + p.1) = true ∧
          inRange (.between (-2000) 2000) (resolve s p.1 p.2).addr = true) ∧
      (∃ t, exec (.add .immediate .immediate .position) u = .next t) ∧
      storedCell (.add .immediate .immediate .position) u = some (5, 2001) ∧
      (∃ t, exec (.out .relative .position .position) v = .next t) ∧
      inRange (.between (-2000) 2000) (resolve v 1 .relative).addr = false ∧
      w.Within (.between (-2000) 2000) ∧ w.inq = [] ∧ (∃ t, exec (.inp .relative .position .position) w = .next t) ∧
      inRange (.between (-2000) 2000) (resolve w 1 .relative).addr = false :=
  ⟨boot [1101, 1999, 1, 5] [] 0, boot [1101, 2000, 1, 5] [] 0, boot [204, 1] [] 2000, boot [203, 1] [] 2000,
    ⟨by decide, by decide, by decide, by decide, by decide⟩, ⟨by decide, by decide, by decide, by decide, by decide⟩,
    ⟨by decide, by decide, by decide, by decide, by decide⟩, ⟨_, rfl, by decide, by decide⟩, by decide, by decide,
    ⟨_, rfl⟩, by decide, ⟨_, rfl⟩, by decide,
    ⟨by decide, by decide, by decide, by decide, by decide⟩, rfl, ⟨_, rfl⟩, by decide⟩

theorem test_witness_FiniteRangeChecksInOrder :
    (boot [303] [] 0).status = .running ∧ decode ((boot [303] [] 0).mem.read (boot [303] [] 0).pc) = .error .badMode ∧
    decode ((boot [203, 1] [] 2000).mem.read (boot [203, 1] [] 2000).pc) = .ok (.inp .relative .position .position) ∧
    (boot [203, 1] [] 2000).status = .running ∧ (boot [203, 1] [] 2000).inq = [] ∧
    ({ boot [99] [] 0 with halted := true } : State).status ≠ .running := by decide

theorem test_witness_EveryStepStaysInTheRange :
    (CellRange.between (-2000) 2000).wf = true ∧ (boot [1101, 2000, 1, 5] [] 0).Within (.between (-2000) 2000) ∧
    ∃ t, stepWithin (.between (-2000) 2000) (boot [1101, 2000, 1, 5] [] 0) = .next t :=
  ⟨by decide, ⟨by decide, by decide, by decide, by decide, by decide⟩, _, rfl⟩

theorem test_witness_EveryHostOperationStaysInTheRange :
    (CellRange.between (-2000) 2000).wf = true ∧
    (Session.fresh [1101, 2000, 1, 5]).machine.Within (.between (-2000) 2000) ∧
    ∃ y reply, hostApplyWithin (.between (-2000) 2000) (.poke 2000 2000) (Session.fresh [1101, 2000, 1, 5]) =
      some (y, reply) :=
  ⟨by decide, ⟨by decide, by decide, by decide, by decide, by decide⟩, _, _, rfl⟩

end Sys2Proof.Tests
end

section
/-!
PROOFS. What one instruction can do to the state, said once (`ExecEffect`), who writes which component, and from these the
two statements of 10_state.md: the PC table of R13 and the writes table of R26.
-/

namespace Sys2Proof.Machine

/-- What executing an instruction in `s` can lead to, one constructor for each shape of effect (40_cycle_and_operands.md R89):
everything an instruction does, in the named updates of the state. -/
inductive ExecEffect (s : State) : Instr → State → Prop where
  /-- ADD, MUL, LT, EQ: the value of `storedCell` goes to P3.addr. -/
  | store {i : Instr} {m1 m2 m3 : Mode} {v : Int}
      (hi : i = .add m1 m2 m3 ∨ i = .mul m1 m2 m3 ∨ i = .lt m1 m2 m3 ∨ i = .eq m1 m2 m3)
      (hv : storedCell i s = some ((resolve s 3 m3).addr, v)) :
      ExecEffect s i ((s.writeMem (resolve s 3 m3).addr v).advance 4)
  /-- IN on an empty queue raises code 4. -/
  | starve {m1 m2 m3 : Mode} (hq : s.inq = []) : ExecEffect s (.inp m1 m2 m3) (takeFault .inputStarvation s)
  /-- IN on a queue that holds an entry. -/
  | input {m1 m2 m3 : Mode} {v : Int} {rest : List Int} (hq : s.inq = v :: rest) :
      ExecEffect s (.inp m1 m2 m3) (((s.setInq rest).writeMem (resolve s 1 m1).addr v).advance 2)
  | output {m1 m2 m3 : Mode} : ExecEffect s (.out m1 m2 m3) ((s.emit (resolve s 1 m1).value).advance 2)
  | jumpTrue {m1 m2 m3 : Mode} :
      ExecEffect s (.jt m1 m2 m3)
        (s.setPc (if (resolve s 1 m1).value ≠ 0 then (resolve s 2 m2).value else s.pc + 3))
  | jumpFalse {m1 m2 m3 : Mode} :
      ExecEffect s (.jf m1 m2 m3)
        (s.setPc (if (resolve s 1 m1).value = 0 then (resolve s 2 m2).value else s.pc + 3))
  | adjustBase {m1 m2 m3 : Mode} :
      ExecEffect s (.arb m1 m2 m3) ((s.setRb (s.rb + (resolve s 1 m1).value)).advance 2)
  | halt {m1 m2 m3 : Mode} : ExecEffect s (.halt m1 m2 m3) s.setHalted

/-- Every instruction answers a next state, and `ExecEffect` says which. -/
theorem exec_next_effect (i : Instr) (s : State) : ∃ t, exec i s = .next t ∧ ExecEffect s i t := by
  cases i with
  | add m1 m2 m3 => exact ⟨_, exec_add m1 m2 m3 s, .store (.inl rfl) rfl⟩
  | mul m1 m2 m3 => exact ⟨_, exec_mul m1 m2 m3 s, .store (.inr (.inl rfl)) rfl⟩
  | lt m1 m2 m3 => exact ⟨_, exec_lt m1 m2 m3 s, .store (.inr (.inr (.inl rfl))) rfl⟩
  | eq m1 m2 m3 => exact ⟨_, exec_eq m1 m2 m3 s, .store (.inr (.inr (.inr rfl))) rfl⟩
  | inp m1 m2 m3 =>
    cases hq : s.inq with
    | nil => exact ⟨_, exec_inp_nil m1 m2 m3 s hq, .starve hq⟩
    | cons v rest => exact ⟨_, exec_inp_cons m1 m2 m3 s v rest hq, .input hq⟩
  | out m1 m2 m3 => exact ⟨_, exec_out m1 m2 m3 s, .output⟩
  | jt m1 m2 m3 => exact ⟨_, exec_jt m1 m2 m3 s, .jumpTrue⟩
  | jf m1 m2 m3 => exact ⟨_, exec_jf m1 m2 m3 s, .jumpFalse⟩
  | arb m1 m2 m3 => exact ⟨_, exec_arb m1 m2 m3 s, .adjustBase⟩
  | halt m1 m2 m3 => exact ⟨_, exec_halt m1 m2 m3 s, .halt⟩

theorem exec_effect {i : Instr} {s t : State} (h : exec i s = .next t) : ExecEffect s i t := by
  obtain ⟨u, hu, he⟩ := exec_next_effect i s
  cases hu.symm.trans h
  exact he

/-- `step_cases` with the effect of the instruction: a step raises what Decode raised, or has the effect of what Decode gave. -/
theorem step_effect {s t : State} (h : step s = .next t) :
    s.status = .running ∧
      ((∃ c, decode (s.mem.read s.pc) = .error c ∧ t = takeFault c s) ∨
        ∃ i, decode (s.mem.read s.pc) = .ok i ∧ ExecEffect s i t) := by
  obtain ⟨hr, hraise | ⟨i, hi, he⟩⟩ := step_cases h
  · exact ⟨hr, .inl hraise⟩
  · exact ⟨hr, .inr ⟨i, hi, exec_effect he⟩⟩

theorem takeFault_status (c : Cause) (s : State) : (takeFault c s).status = .faulted := rfl

namespace ExecEffect

variable {i : Instr} {s t : State}

/-! ### Who writes which component -/

theorem cell_written (he : ExecEffect s i t) {b : Int} (hb : t.mem.read b ≠ s.mem.read b) :
    ∃ m1 m2 m3,
      ((i = .add m1 m2 m3 ∨ i = .mul m1 m2 m3 ∨ i = .lt m1 m2 m3 ∨ i = .eq m1 m2 m3) ∧ b = (resolve s 3 m3).addr) ∨
        (i = .inp m1 m2 m3 ∧ b = (resolve s 1 m1).addr) := by
  have written {a v : Int} (h : (s.mem.write a v).read b ≠ s.mem.read b) : b = a := by
    by_contra hne
    exact h (by rw [Memory.read_write, if_neg hne])
  cases he with
  | store hi => exact ⟨_, _, _, .inl ⟨hi, written hb⟩⟩
  | input => exact ⟨_, _, _, .inr ⟨rfl, written hb⟩⟩
  | starve | output | jumpTrue | jumpFalse | adjustBase | halt => exact absurd rfl hb

theorem pc_written (he : ExecEffect s i t) (hpc : t.pc ≠ s.pc) : i.opcode ≠ .halt := by
  cases he with
  | store hi => rcases hi with rfl | rfl | rfl | rfl <;> nofun
  | halt => exact absurd rfl hpc
  | starve | input | output | jumpTrue | jumpFalse | adjustBase => nofun

theorem rb_written (he : ExecEffect s i t) (hrb : t.rb ≠ s.rb) : ∃ m1 m2 m3, i = .arb m1 m2 m3 := by
  cases he with
  | adjustBase => exact ⟨_, _, _, rfl⟩
  | store | starve | input | output | jumpTrue | jumpFalse | halt => exact absurd rfl hrb

theorem inq_written (he : ExecEffect s i t) (hq : t.inq ≠ s.inq) :
    ∃ m1 m2 m3 v, i = .inp m1 m2 m3 ∧ s.inq = v :: t.inq := by
  cases he with
  | input hcons => exact ⟨_, _, _, _, rfl, hcons⟩
  | store | starve | output | jumpTrue | jumpFalse | adjustBase | halt => exact absurd rfl hq

theorem outq_written (he : ExecEffect s i t) (hq : t.outq ≠ s.outq) :
    ∃ m1 m2 m3 v, i = .out m1 m2 m3 ∧ t.outq = s.outq ++ [v] := by
  cases he with
  | output => exact ⟨_, _, _, _, rfl, rfl⟩
  | store | starve | input | jumpTrue | jumpFalse | adjustBase | halt => exact absurd rfl hq

theorem halted_written_iff (he : ExecEffect s i t) (hs : s.halted = false) :
    t.halted ≠ s.halted ↔ ∃ m1 m2 m3, i = .halt m1 m2 m3 := by
  cases he with
  | store hi => rcases hi with rfl | rfl | rfl | rfl <;> simp
  | halt => simp [hs]
  | starve | input | output | jumpTrue | jumpFalse | adjustBase => simp

/-- The one instruction that raises is IN on an empty queue (60_exceptions.md R164). -/
theorem fault_written (he : ExecEffect s i t) (hf : t.fault ≠ s.fault) :
    t.status = .faulted ∧ s.inq = [] ∧ ∃ m1 m2 m3, i = .inp m1 m2 m3 := by
  cases he with
  | starve hq => exact ⟨takeFault_status _ s, hq, _, _, _, rfl⟩
  | store | input | output | jumpTrue | jumpFalse | adjustBase | halt => exact absurd rfl hf

end ExecEffect

/-- Settles O27: a decode error and a starving IN leave PC; every other effect has the PC of its row. -/
theorem programCounterTable : Obligations.ProgramCounterTable := by
  intro s t h
  obtain ⟨hr, ⟨c, -, rfl⟩ | ⟨i, hi, he⟩⟩ := step_effect h
  · simp
  · have hs : s.fault = none := ((State.status_running_iff s).1 hr).1
    rw [hi]
    cases he with
    | store hstore => rcases hstore with rfl | rfl | rfl | rfl <;> simp [hs]
    | starve => simp
    | input | output | jumpTrue | jumpFalse | adjustBase | halt => simp [hs]

/-- Settles O28: a decode error writes FAULT alone, and an executed instruction writes what the lemmas of `ExecEffect` say. -/
theorem whoWritesWhichState : Obligations.WhoWritesWhichState := by
  intro s t h
  obtain ⟨hr, ⟨c, hc, rfl⟩ | ⟨i, hi, he⟩⟩ := step_effect h
  · simp [hc, takeFault_status]
  · have hs : s.halted = false := ((State.status_running_iff s).1 hr).2
    simp only [hi, Except.ok.injEq]
    refine ⟨fun b => he.cell_written, fun hpc => ⟨i, rfl, he.pc_written hpc⟩, he.rb_written, he.inq_written,
      he.outq_written, he.halted_written_iff hs, fun hf => ?_⟩
    obtain ⟨hst, hq, hin⟩ := he.fault_written hf
    exact ⟨hst, .inr ⟨hq, hin⟩⟩

end Sys2Proof.Machine
end

section
/-!
PROOFS. What memory holds after an image is loaded and after a list of writes, and from these R42's zero (20_memory.md).
-/

namespace Sys2Proof.Machine

/-- Loading at `a` fills the cells from `a` on with the list and leaves every other cell alone (70_reset_and_hazards.md R181). -/
theorem Memory.read_loadAt (m : Memory) (a b : Int) (vs : List Int) :
    (m.loadAt a vs).read b = if a ≤ b then vs.getD (b - a).toNat (m.read b) else m.read b := by
  induction vs generalizing m a with
  | nil => simp [Memory.loadAt]
  | cons v rest ih =>
    rw [Memory.loadAt, ih, Memory.read_write]
    rcases lt_trichotomy b a with hlt | rfl | hgt
    · rw [if_neg (by omega), if_neg (by omega), if_neg (by omega)]
    · simp
    · have hnext : (b - a).toNat = (b - (a + 1)).toNat + 1 := by omega
      rw [if_pos (by omega), if_neg (by omega), if_pos (by omega), hnext, List.getD_cons_succ]

/-- The memory of an image reads 0 outside the image. -/
theorem imageMemory_read_outside {image : List Int} {a : Int} (ha : a < 0 ∨ (image.length : Int) ≤ a) :
    (imageMemory image).read a = 0 := by
  rw [imageMemory, Memory.read_loadAt]
  split
  · exact List.getD_eq_default _ _ (by omega)
  · rfl

/-- Writes elsewhere leave a cell alone, however many they are (20_memory.md R43). -/
theorem Memory.read_foldl_write_of_ne {a : Int} {writes : List (Int × Int)} (m : Memory)
    (h : ∀ c ∈ writes, c.1 ≠ a) : (writes.foldl (fun m c => m.write c.1 c.2) m).read a = m.read a := by
  induction writes generalizing m with
  | nil => rfl
  | cons c rest ih =>
    obtain ⟨hc, hrest⟩ := List.forall_mem_cons.1 h
    rw [List.foldl_cons, ih _ hrest, Memory.read_write, if_neg hc.symm]

/-- Settles O35: the writes leave the cell alone, and the image's memory reads 0 there. -/
theorem neverWrittenCellReadsZero : Obligations.NeverWrittenCellReadsZero := by
  intro image writes a ha hw
  rw [Memory.read_foldl_write_of_ne _ hw, imageMemory_read_outside ha]

end Sys2Proof.Machine
end

section
/-!
PROOFS. The length of an instruction and the PC of the next one in sequence (30_encoding.md R66).
-/

namespace Sys2Proof

/-- The length as a function of the opcode's number alone. -/
theorem Opcode.length_eq (op : Opcode) :
    op.length =
      if op.number = 99 then 1
      else if op.number = 3 ∨ op.number = 4 ∨ op.number = 9 then 2
      else if op.number = 5 ∨ op.number = 6 then 3 else 4 := by
  cases op <;> rfl

end Sys2Proof

namespace Sys2Proof.Machine

/-- An instruction that completes and neither halts nor jumps leaves PC just behind its last cell. -/
theorem ExecEffect.pc_in_sequence {i : Instr} {s t : State} (he : ExecEffect s i t) (hf : t.fault = none)
    (hhalt : i.opcode ≠ .halt) (hjt : i.opcode = .jt → (resolve s 1 i.mode1).value = 0)
    (hjf : i.opcode = .jf → (resolve s 1 i.mode1).value ≠ 0) : t.pc = s.pc + i.opcode.length := by
  cases he with
  | store hi => rcases hi with rfl | rfl | rfl | rfl <;> rfl
  | starve => nomatch hf
  | input | output | adjustBase => rfl
  | jumpTrue => exact if_neg (not_not.2 (hjt rfl))
  | jumpFalse => exact if_neg (hjf rfl)
  | halt => exact absurd rfl hhalt

/-- Settles O4: the table is `Opcode.length_eq`; the advance is `ExecEffect.pc_in_sequence` of the instruction fetched. -/
theorem lengthIsFixedByOpcode : Obligations.LengthIsFixedByOpcode := by
  refine ⟨fun i => i.opcode.length_eq, fun i s t hi h hf hhalt hjt hjf => ?_⟩
  obtain ⟨-, ⟨c, hc, -⟩ | ⟨j, hj, he⟩⟩ := step_cases h
  · cases hi.symm.trans hc
  · cases hi.symm.trans hj
    exact (exec_effect he).pc_in_sequence hf hhalt hjt hjf

end Sys2Proof.Machine
end

section
/-!
PROOFS. The cell an instruction stores to is the only cell it changes, and where that cell lies for an immediate destination
(40_cycle_and_operands.md R85).
-/

namespace Sys2Proof.Machine

namespace ExecEffect

variable {i : Instr} {s t : State} {a v : Int}

/-- An instruction that stores leaves the value of `storedCell` in its cell and every other cell as it was. -/
theorem storesOnly_of_storedCell (he : ExecEffect s i t) (hstored : storedCell i s = some (a, v)) :
    storesOnly s t a v := by
  have written {u : State} (hmem : u.mem = s.mem.write a v) : storesOnly s u a v := fun b => by
    rw [hmem, Memory.read_write]
  cases he with
  | store _ hv => cases hv.symm.trans hstored; exact written rfl
  | starve hq => simp [storedCell, hq] at hstored
  | input hq =>
    simp only [storedCell, hq, List.head?_cons, Option.map_some, Option.some.injEq, Prod.mk.injEq] at hstored
    obtain ⟨rfl, rfl⟩ := hstored
    exact written rfl
  | output | jumpTrue | jumpFalse | adjustBase | halt => nomatch hstored

/-- An instruction that stores raises nothing: the one that raises is IN on an empty queue, which stores nothing. -/
theorem fault_of_storedCell (he : ExecEffect s i t) (hstored : storedCell i s = some (a, v)) : t.fault = s.fault := by
  by_contra hf
  obtain ⟨-, hq, m1, m2, m3, rfl⟩ := he.fault_written hf
  simp [storedCell, hq] at hstored

end ExecEffect

/-- An immediate parameter is its own operand cell: its address is that cell and its value what the cell holds. -/
theorem resolve_immediate (s : State) (k : Nat) :
    resolve s k .immediate = ⟨s.pc + k, s.mem.read (s.pc + k)⟩ := rfl

/-- ADD, MUL, LT and EQ with an immediate destination store in the third operand cell. -/
theorem storedCell_immediate_third {m1 m2 : Mode} {i : Instr} (s : State)
    (hi : i = .add m1 m2 .immediate ∨ i = .mul m1 m2 .immediate ∨ i = .lt m1 m2 .immediate ∨ i = .eq m1 m2 .immediate) :
    ∃ v, storedCell i s = some (s.pc + 3, v) := by
  rcases hi with rfl | rfl | rfl | rfl <;> exact ⟨_, rfl⟩

/-- IN with an immediate destination stores the head of the queue in its operand cell. -/
theorem storedCell_inp_immediate (m2 m3 : Mode) {s : State} {v : Int} {rest : List Int} (hq : s.inq = v :: rest) :
    storedCell (.inp .immediate m2 m3) s = some (s.pc + 1, v) := by
  simp [storedCell, hq, resolve_immediate]

/-- Settles O41: the stored cell of an immediate destination is the operand's own, and an instruction that stores changes
that cell alone and raises nothing. -/
theorem immediateDestinationIsTheOperandCell : Obligations.ImmediateDestinationIsTheOperandCell := by
  refine ⟨resolve_immediate, fun m1 m2 i s hi => ?_, fun m2 m3 s v rest hq => ?_⟩
  · obtain ⟨t, ht, he⟩ := exec_next_effect i s
    obtain ⟨v, hv⟩ := storedCell_immediate_third s hi
    exact ⟨t, v, ht, hv, he.storesOnly_of_storedCell hv, he.fault_of_storedCell hv⟩
  · obtain ⟨t, ht, he⟩ := exec_next_effect (.inp .immediate m2 m3) s
    have hv := storedCell_inp_immediate m2 m3 hq
    exact ⟨t, ht, he.storesOnly_of_storedCell hv, he.fault_of_storedCell hv⟩

end Sys2Proof.Machine
end

section
/-!
PROOFS. The word of an opcode and three modes decodes to that instruction (30_encoding.md R61, R68), and a store followed by
the advance of PC changes its cell and PC alone; from these ADD and MUL (41_arithmetic.md R100, R101).
-/

namespace Sys2Proof

@[simp] theorem Mode.ofDigit_toDigit (m : Mode) : Mode.ofDigit m.toDigit = some m := by
  cases m <;> rfl

theorem Mode.toDigit_le (m : Mode) : m.toDigit ≤ 2 := by
  cases m <;> decide

@[simp] theorem Opcode.ofField_number (op : Opcode) : Opcode.ofField op.number = some op := by
  cases op <;> rfl

theorem Opcode.number_le (op : Opcode) : op.number ≤ 99 := by
  cases op <;> decide

/-- Fields of at most one digit a mode and two digits an opcode are read back from their word (30_encoding.md R61). -/
theorem fieldsOf_word {f : Fields} (h1 : f.mode1 ≤ 9) (h2 : f.mode2 ≤ 9) (h3 : f.mode3 ≤ 9) (hop : f.opcode ≤ 99) :
    fieldsOf f.word = f := by
  obtain ⟨d3, d2, d1, n⟩ := f
  simp only [fieldsOf, digit, Fields.word, Fields.mk.injEq] at *
  omega

/-- Decode of the word of such fields is the checks on the fields: no such word is out of range (30_encoding.md R62, R68). -/
theorem decode_word {f : Fields} (h1 : f.mode1 ≤ 9) (h2 : f.mode2 ≤ 9) (h3 : f.mode3 ≤ 9) (hop : f.opcode ≤ 99) :
    decode f.word = decodeFields f := by
  have hrange : ¬ ((f.word : Int) < 0 ∨ 99999 < (f.word : Int)) := by
    unfold Fields.word
    omega
  rw [decode, if_neg hrange, Int.toNat_natCast, fieldsOf_word h1 h2 h3 hop]

/-- The checks let the fields of an opcode and three modes pass (30_encoding.md R68). -/
theorem decodeFields_ok (op : Opcode) (m1 m2 m3 : Mode) :
    decodeFields ⟨m3.toDigit, m2.toDigit, m1.toDigit, op.number⟩ = .ok (op.instr m1 m2 m3) := by
  simp [decodeFields]

/-- The word of an opcode and three modes decodes to that instruction: all 270 legal words (30_encoding.md R64, R68). -/
theorem decode_instr_word (op : Opcode) (m1 m2 m3 : Mode) :
    decode (10000 * m3.toDigit + 1000 * m2.toDigit + 100 * m1.toDigit + op.number) = .ok (op.instr m1 m2 m3) := by
  have digit_le (m : Mode) : m.toDigit ≤ 9 := m.toDigit_le.trans (by decide)
  rw [← decodeFields_ok, ← decode_word (digit_le m1) (digit_le m2) (digit_le m3) op.number_le]
  simp [Fields.word]

end Sys2Proof

namespace Sys2Proof.Machine

theorem storesOnly_writeMem_advance (s : State) (a v : Int) (n : Nat) :
    storesOnly s ((s.writeMem a v).advance n) a v :=
  fun b => s.mem.read_write a b v

theorem sameRegisters_writeMem_advance (s : State) (a v : Int) (n : Nat) :
    sameRegisters s ((s.writeMem a v).advance n) :=
  ⟨rfl, rfl, rfl, rfl, rfl⟩

/-- Settles O17: the words by `decode_instr_word`; the next state is the store of the sum and the advance. -/
theorem addStoresTheSum : Obligations.AddStoresTheSum :=
  ⟨fun m1 m2 m3 => ⟨decode_instr_word .add m1 m2 m3, rfl⟩, fun m1 m2 m3 s =>
    ⟨_, exec_add m1 m2 m3 s, rfl, storesOnly_writeMem_advance s _ _ 4, sameRegisters_writeMem_advance s _ _ 4⟩⟩

/-- Settles O18: the words by `decode_instr_word`; the next state is the store of the product and the advance. -/
theorem mulStoresTheProduct : Obligations.MulStoresTheProduct :=
  ⟨fun m1 m2 m3 => ⟨decode_instr_word .mul m1 m2 m3, rfl⟩, fun m1 m2 m3 s =>
    ⟨_, exec_mul m1 m2 m3 s, rfl, storesOnly_writeMem_advance s _ _ 4, sameRegisters_writeMem_advance s _ _ 4⟩⟩

end Sys2Proof.Machine
end

section
/-!
PROOFS. The conditional jumps (43_jumps.md R120, R121): their words decode to them, and their one effect is on PC.
-/

namespace Sys2Proof.Machine

/-- Settles O21: the words by `decode_instr_word`, the next state by `exec_jt`. -/
theorem jumpIfTrueGoesToTheTarget : Obligations.JumpIfTrueGoesToTheTarget :=
  ⟨fun m1 m2 m3 => ⟨decode_instr_word .jt m1 m2 m3, rfl⟩, exec_jt⟩

/-- Settles O22: the words by `decode_instr_word`, the next state by `exec_jf`. -/
theorem jumpIfFalseGoesToTheTarget : Obligations.JumpIfFalseGoesToTheTarget :=
  ⟨fun m1 m2 m3 => ⟨decode_instr_word .jf m1 m2 m3, rfl⟩, exec_jf⟩

end Sys2Proof.Machine
end

section
/-!
PROOFS. The comparisons LT and EQ (44_compare.md R130, R131): an instruction whose next state is a store and an advance of
PC changes that cell and PC alone, and theirs is such with the comparison's 1 or 0 stored.
-/

namespace Sys2Proof.Machine

/-- Result and frame of an instruction whose whole effect is one store and the advance of PC; the source values stand in `v`,
read before the store (41_arithmetic.md R100, 44_compare.md R130(d)). -/
theorem exec_changes_cell_and_pc {i : Instr} {s : State} {a v : Int} {n : Nat}
    (h : exec i s = .next ((s.writeMem a v).advance n)) :
    ∃ t, exec i s = .next t ∧ t.pc = s.pc + n ∧ storesOnly s t a v ∧ sameRegisters s t :=
  ⟨_, h, rfl, storesOnly_writeMem_advance s a v n, sameRegisters_writeMem_advance s a v n⟩

/-- Settles O23: the words by `decode_instr_word`; the next state of `exec_lt` is a store and an advance. -/
theorem lessThanStoresOneOrZero : Obligations.LessThanStoresOneOrZero :=
  ⟨fun m1 m2 m3 => ⟨decode_instr_word .lt m1 m2 m3, rfl⟩, fun m1 m2 m3 s =>
    exec_changes_cell_and_pc (exec_lt m1 m2 m3 s)⟩

/-- Settles O24: the words by `decode_instr_word`; the next state of `exec_eq` is a store and an advance. -/
theorem equalsStoresOneOrZero : Obligations.EqualsStoresOneOrZero :=
  ⟨fun m1 m2 m3 => ⟨decode_instr_word .eq m1 m2 m3, rfl⟩, fun m1 m2 m3 s =>
    exec_changes_cell_and_pc (exec_eq m1 m2 m3 s)⟩

end Sys2Proof.Machine
end

section
/-!
PROOFS. ARB (45_relative_base.md R140): the new RB is the old one plus P1.value, and from this the cumulative law.
-/

namespace Sys2Proof.Machine

/-- The RB after ARB, its parameter resolved in the state before (45_relative_base.md R140). -/
theorem rb_of_exec_arb {m1 m2 m3 : Mode} {s t : State} (h : exec (.arb m1 m2 m3) s = .next t) :
    t.rb = s.rb + (resolve s 1 m1).value := by
  cases (exec_arb m1 m2 m3 s).symm.trans h
  rfl

/-- R140(c): two adjustments in a row leave the RB of one adjustment by the sum of their values. -/
theorem rb_of_exec_arb_sum {m1 m2 m3 n1 n2 n3 k1 k2 k3 : Mode} {s t u s' t' : State}
    (ha : exec (.arb m1 m2 m3) s = .next t) (hb : exec (.arb n1 n2 n3) t = .next u)
    (hsum : exec (.arb k1 k2 k3) s' = .next t') (hrb : s'.rb = s.rb)
    (hvalue : (resolve s' 1 k1).value = (resolve s 1 m1).value + (resolve t 1 n1).value) : t'.rb = u.rb :=
  calc t'.rb = s'.rb + (resolve s' 1 k1).value := rb_of_exec_arb hsum
    _ = s.rb + ((resolve s 1 m1).value + (resolve t 1 n1).value) := by rw [hrb, hvalue]
    _ = s.rb + (resolve s 1 m1).value + (resolve t 1 n1).value := (Int.add_assoc ..).symm
    _ = t.rb + (resolve t 1 n1).value := by rw [rb_of_exec_arb ha]
    _ = u.rb := (rb_of_exec_arb hb).symm

/-- Settles O25: the words by `decode_instr_word`, the next state by `exec_arb`, the cumulative law by
`rb_of_exec_arb_sum`. -/
theorem relativeBaseAdjustmentIsCumulative : Obligations.RelativeBaseAdjustmentIsCumulative :=
  ⟨fun m1 m2 m3 => ⟨decode_instr_word .arb m1 m2 m3, rfl⟩, exec_arb,
    fun _ _ _ _ _ _ _ _ _ _ _ _ _ _ => rb_of_exec_arb_sum⟩

end Sys2Proof.Machine
end

section
/-!
PROOFS. HALT (46_halt.md R150): its step sets HALTED and nothing else, and outside RUNNING there is no step.
-/

namespace Sys2Proof.Machine

/-- In RUNNING, the step at a word that decodes is the rule of its instruction (40_cycle_and_operands.md R80). -/
theorem step_eq_exec {s : State} {i : Instr} (hr : s.status = .running) (hi : decode (s.mem.read s.pc) = .ok i) :
    step s = exec i s := by
  have hfetch : fetchInstr s = .ok i := hi
  simp only [step, (stopReason_eq_none_iff s).2 hr, hfetch]

/-- Outside RUNNING no step answers a next state (40_cycle_and_operands.md R80). -/
theorem step_ne_next {s : State} (hr : s.status ≠ .running) (t : State) : step s ≠ .next t :=
  fun h => hr (step_cases h).1

/-- A machine that halts in RUNNING ends in HALTED, not in FAULTED: FAULT was not set (10_state.md R17). -/
theorem State.setHalted_status {s : State} (hr : s.status = .running) : s.setHalted.status = .halted := by
  obtain ⟨hfault, -⟩ := (State.status_running_iff s).1 hr
  simp [State.status, hfault]

/-- Settles O26: the words by `decode_instr_word`; the step is that of `exec_halt`, and it leaves RUNNING for HALTED, where
there is no step. -/
theorem haltStopsTheMachine : Obligations.HaltStopsTheMachine := by
  refine ⟨fun m1 m2 m3 => ⟨decode_instr_word .halt m1 m2 m3, rfl⟩, exec_halt, fun m1 m2 m3 s hr hi => ?_⟩
  have hstatus : s.setHalted.status = .halted := State.setHalted_status hr
  exact ⟨(step_eq_exec hr hi).trans (exec_halt m1 m2 m3 s), hstatus, step_ne_next (s := s.setHalted) (by simp [hstatus])⟩

end Sys2Proof.Machine
end

section
/-!
PROOFS. Decode and encode agree (30_encoding.md): what an instruction's fields are, and that the checks of Decode let exactly
those pass; from these the 270 legal words and the assembler's canonical words.
-/

namespace Sys2Proof

/-- An instruction is an opcode with three modes. -/
theorem Instr.exists_eq_instr (i : Instr) : ∃ (op : Opcode) (m1 m2 m3 : Mode), i = op.instr m1 m2 m3 := by
  refine ⟨i.opcode, ?_⟩
  cases i <;> exact ⟨_, _, _, rfl⟩

@[simp] theorem Opcode.instr_opcode (op : Opcode) (m1 m2 m3 : Mode) : (op.instr m1 m2 m3).opcode = op := by
  cases op <;> rfl

@[simp] theorem Opcode.instr_fields (op : Opcode) (m1 m2 m3 : Mode) :
    (op.instr m1 m2 m3).fields = ⟨m3.toDigit, m2.toDigit, m1.toDigit, op.number⟩ := by
  cases op <;> rfl

/-- The word of an opcode and three modes (30_encoding.md R61). -/
theorem encode_instr (op : Opcode) (m1 m2 m3 : Mode) :
    encode (op.instr m1 m2 m3) = 10000 * m3.toDigit + 1000 * m2.toDigit + 100 * m1.toDigit + op.number := by
  simp [encode, Fields.word]

theorem Mode.ofDigit_eq_some_iff (d : Nat) (m : Mode) : Mode.ofDigit d = some m ↔ m.toDigit = d := by
  refine ⟨fun h => ?_, fun h => h ▸ m.ofDigit_toDigit⟩
  unfold Mode.ofDigit at h
  split at h <;> cases h <;> rfl

theorem Opcode.ofField_eq_some_iff (n : Nat) (op : Opcode) : Opcode.ofField n = some op ↔ op.number = n := by
  refine ⟨fun h => ?_, fun h => h ▸ op.ofField_number⟩
  unfold Opcode.ofField at h
  split at h <;> cases h <;> rfl

theorem Mode.exists_toDigit_iff (d : Nat) : (∃ m : Mode, m.toDigit = d) ↔ d ≤ 2 := by
  refine ⟨fun ⟨m, hm⟩ => hm ▸ m.toDigit_le, fun h => ?_⟩
  interval_cases d
  exacts [⟨.position, rfl⟩, ⟨.immediate, rfl⟩, ⟨.relative, rfl⟩]

theorem Opcode.exists_number_iff (n : Nat) :
    (∃ op : Opcode, op.number = n) ↔ n ∈ [1, 2, 3, 4, 5, 6, 7, 8, 9, 99] := by
  constructor
  · rintro ⟨op, rfl⟩
    cases op <;> decide
  · simp only [List.mem_cons, List.not_mem_nil, or_false]
    rintro (rfl | rfl | rfl | rfl | rfl | rfl | rfl | rfl | rfl | rfl)
    exacts [⟨.add, rfl⟩, ⟨.mul, rfl⟩, ⟨.inp, rfl⟩, ⟨.out, rfl⟩, ⟨.jt, rfl⟩, ⟨.jf, rfl⟩, ⟨.lt, rfl⟩, ⟨.eq, rfl⟩, ⟨.arb, rfl⟩,
      ⟨.halt, rfl⟩]

/-- The checks of Decode let the fields of an instruction pass and no other (30_encoding.md R68). -/
theorem decodeFields_eq_ok_iff (f : Fields) (i : Instr) : decodeFields f = .ok i ↔ i.fields = f := by
  constructor
  · intro h
    unfold decodeFields at h
    split at h
    · cases h
    · rename_i op hop
      split at h
      · rename_i m1 m2 m3 h1 h2 h3
        cases h
        rw [Opcode.instr_fields, (Mode.ofDigit_eq_some_iff _ _).1 h1, (Mode.ofDigit_eq_some_iff _ _).1 h2,
          (Mode.ofDigit_eq_some_iff _ _).1 h3, (Opcode.ofField_eq_some_iff _ _).1 hop]
      · cases h
  · rintro rfl
    obtain ⟨op, m1, m2, m3, rfl⟩ := i.exists_eq_instr
    rw [Opcode.instr_fields, decodeFields_ok]

/-- A word of at most five digits is the word of its decimal fields (30_encoding.md R61). -/
theorem word_fieldsOf {n : Nat} (h : n ≤ 99999) : (fieldsOf n).word = n := by
  simp only [Fields.word, fieldsOf, digit]
  omega

theorem decode_encode (i : Instr) : decode (encode i) = .ok i := by
  obtain ⟨op, m1, m2, m3, rfl⟩ := i.exists_eq_instr
  rw [encode_instr, decode_instr_word]

theorem encode_of_decode_ok {w : Int} {i : Instr} (h : decode w = .ok i) : encode i = w := by
  obtain ⟨⟨h0, h9⟩, hf⟩ := (Machine.decode_ok_iff w i).1 h
  have hfields : i.fields = fieldsOf w.toNat := (decodeFields_eq_ok_iff _ i).1 hf
  rw [encode, hfields, word_fieldsOf (by omega), Int.toNat_of_nonneg h0]

/-- Settles O1: the word of an instruction decodes to it, and a word that decodes is its instruction's word. -/
theorem decodeEncodeAgree : Obligations.DecodeEncodeAgree :=
  fun _ i => ⟨encode_of_decode_ok, fun h => h ▸ decode_encode i⟩

/-- Settles O2: the legal words are the words of the instructions, an opcode and three modes each. -/
theorem legalWordsAreTheTenOpcodesWithLegalModes : Obligations.LegalWordsAreTheTenOpcodesWithLegalModes := by
  intro w
  constructor
  · rintro ⟨i, hi⟩
    obtain ⟨op, m1, m2, m3, rfl⟩ := i.exists_eq_instr
    exact ⟨m1.toDigit, m2.toDigit, m3.toDigit, op.number, m1.toDigit_le, m2.toDigit_le, m3.toDigit_le,
      (Opcode.exists_number_iff _).1 ⟨op, rfl⟩, by rw [← encode_of_decode_ok hi, encode_instr]⟩
  · rintro ⟨a, b, c, n, ha, hb, hc, hn, rfl⟩
    obtain ⟨m1, rfl⟩ := (Mode.exists_toDigit_iff a).2 ha
    obtain ⟨m2, rfl⟩ := (Mode.exists_toDigit_iff b).2 hb
    obtain ⟨m3, rfl⟩ := (Mode.exists_toDigit_iff c).2 hc
    obtain ⟨op, rfl⟩ := (Opcode.exists_number_iff n).2 hn
    exact ⟨_, decode_instr_word op m1 m2 m3⟩

/-! ### The assembler (30_encoding.md R69) -/

/-- The word of a line is the word of its opcode and its operands' modes, position where there is no operand. -/
theorem asmWord_eq_encode (op : Opcode) (ps : List AsmOperand) :
    asmWord op ps = encode (op.instr ((ps.map (·.mode)).getD 0 .position) ((ps.map (·.mode)).getD 1 .position)
      ((ps.map (·.mode)).getD 2 .position)) := by
  have digit_eq (k : Nat) : ((ps[k]?).map (fun p => p.mode.toDigit)).getD 0 =
      ((ps.map (fun p => p.mode)).getD k Mode.position).toDigit := by
    rw [List.getD_eq_getElem?_getD, List.getElem?_map]
    cases ps[k]? <;> rfl
  simp [encode_instr, asmWord, digit_eq]

/-- An instruction with as many modes as its opcode has parameters, and position in the other digits, is canonical. -/
theorem Opcode.canonical_instr {op : Opcode} {ms : List Mode} (h : ms.length = op.paramCount) :
    (op.instr (ms.getD 0 .position) (ms.getD 1 .position) (ms.getD 2 .position)).canonical = true := by
  have absent (k : Nat) (hk : op.paramCount ≤ k) : ms.getD k .position = .position :=
    List.getD_eq_default _ _ (h ▸ hk)
  cases op with
  | add | mul | lt | eq => rfl
  | jt | jf => rw [absent 2 (by decide)]; rfl
  | inp | out | arb => rw [absent 1 (by decide), absent 2 (by decide)]; rfl
  | halt => rw [absent 0 (by decide), absent 1 (by decide), absent 2 (by decide)]; rfl

/-- An instruction occupies its word and one cell for each parameter (30_encoding.md R66). -/
theorem Opcode.length_eq_paramCount (op : Opcode) : op.length = op.paramCount + 1 := by
  cases op <;> rfl

/-- Settles O5: the word of the line is the word of an instruction with the operands' modes (`asmWord_eq_encode`), and the
number of operands makes it canonical. -/
theorem assembledLineIsCanonical : Obligations.AssembledLineIsCanonical := by
  refine ⟨fun op ps hwf => ?_, fun _ => rfl⟩
  have hlen : ps.length = op.paramCount := by simpa [AsmLine.wf] using hwf
  refine ⟨by simp [assemble, hlen, op.length_eq_paramCount], rfl, asmWord op ps, _, rfl, ?_, rfl, op.instr_opcode _ _ _,
    Opcode.canonical_instr (by simpa using hlen)⟩
  rw [asmWord_eq_encode, decode_encode]

/-- Settles O3: Decode evaluated on each word. -/
theorem specWordsDecode : Obligations.SpecWordsDecode :=
  ⟨rfl, rfl, rfl, rfl, rfl, rfl, rfl, rfl, rfl, rfl, rfl, rfl, rfl, rfl, rfl, rfl⟩

end Sys2Proof
end

section
/-!
PROOFS. What a step can do (`step_eq_next_iff`) and which causes it raises, and from these the fatal conditions (60_exceptions.md).
-/

namespace Sys2Proof

/-- A word that Decode rejects raises one of the decoder's three causes (30_encoding.md R68). -/
theorem decode_error_cause {w : Int} {c : Cause} (h : decode w = .error c) :
    c = .unknownOpcode ∨ c = .badMode ∨ c = .wordRange := by
  unfold decode decodeFields at h
  split at h
  · cases h; simp
  · split at h
    · cases h; simp
    · split at h <;> cases h
      simp

/-- Decode of a word in 0..99999 is the checks on its fields (30_encoding.md R62, R68). -/
theorem decode_in_range {w : Int} (h0 : 0 ≤ w) (h9 : w ≤ 99999) : decode w = decodeFields (fieldsOf w.toNat) :=
  if_neg (by omega)

theorem decode_out_of_range {w : Int} (h : w < 0 ∨ 99999 < w) : decode w = .error .wordRange := if_pos h

theorem Opcode.ofField_eq_none_iff (n : Nat) :
    Opcode.ofField n = none ↔ n ∉ [1, 2, 3, 4, 5, 6, 7, 8, 9, 99] := by
  rw [← Opcode.exists_number_iff, Option.eq_none_iff_forall_ne_some]
  simp [Opcode.ofField_eq_some_iff]

theorem Mode.ofDigit_eq_none {d : Nat} (h : 2 < d) : Mode.ofDigit d = none := by
  rw [Option.eq_none_iff_forall_ne_some]
  intro m hm
  have := m.toDigit_le
  have := (Mode.ofDigit_eq_some_iff d m).1 hm
  omega

theorem decodeFields_unknownOpcode {f : Fields} (h : f.opcode ∉ [1, 2, 3, 4, 5, 6, 7, 8, 9, 99]) :
    decodeFields f = .error .unknownOpcode := by
  simp only [decodeFields, (Opcode.ofField_eq_none_iff f.opcode).2 h]

/-- With one of the ten opcodes, a digit above 2 in any of the three places is the cause raised (30_encoding.md R64). -/
theorem decodeFields_badMode {f : Fields} (hop : f.opcode ∈ [1, 2, 3, 4, 5, 6, 7, 8, 9, 99])
    (h : 2 < f.mode1 ∨ 2 < f.mode2 ∨ 2 < f.mode3) : decodeFields f = .error .badMode := by
  obtain ⟨op, hop⟩ := (Opcode.exists_number_iff f.opcode).2 hop
  simp only [decodeFields, (Opcode.ofField_eq_some_iff f.opcode op).2 hop]
  split
  · rename_i h1 h2 h3
    rcases h with h | h | h
    · cases h1.symm.trans (Mode.ofDigit_eq_none h)
    · cases h2.symm.trans (Mode.ofDigit_eq_none h)
    · cases h3.symm.trans (Mode.ofDigit_eq_none h)
  · rfl

/-- The opcode field of a word that decodes is the number of its instruction's opcode (30_encoding.md R61). -/
theorem opcode_field_of_decode_ok {w : Int} {i : Instr} (h : decode w = .ok i) : w % 100 = i.opcode.number := by
  obtain ⟨op, m1, m2, m3, rfl⟩ := i.exists_eq_instr
  have hw : w = _ := (encode_of_decode_ok h).symm.trans (encode_instr op m1 m2 m3)
  have := op.number_le
  rw [Opcode.instr_opcode]
  omega

end Sys2Proof

namespace Sys2Proof.Machine

/-! ### What a step can do -/

/-- `ExecEffect` says what `exec` answers, in both directions. -/
theorem exec_eq_next_iff {i : Instr} {s t : State} : exec i s = .next t ↔ ExecEffect s i t := by
  refine ⟨exec_effect, fun he => ?_⟩
  cases he with
  | store hi hv =>
    rcases hi with rfl | rfl | rfl | rfl <;> cases hv
    exacts [exec_add .., exec_mul .., exec_lt .., exec_eq ..]
  | starve hq => exact exec_inp_nil _ _ _ s hq
  | input hq => exact exec_inp_cons _ _ _ s _ _ hq
  | output => exact exec_out ..
  | jumpTrue => exact exec_jt ..
  | jumpFalse => exact exec_jf ..
  | adjustBase => exact exec_arb ..
  | halt => exact exec_halt ..

/-- In RUNNING, a word that Decode rejects raises (40_cycle_and_operands.md R82). -/
theorem step_of_decode_error {s : State} {c : Cause} (hr : s.status = .running)
    (hc : decode (s.mem.read s.pc) = .error c) : step s = .next (takeFault c s) := by
  have hfetch : fetchInstr s = .error c := hc
  simp only [step, (stopReason_eq_none_iff s).2 hr, hfetch]

/-- `step_effect` in both directions. -/
theorem step_eq_next_iff {s t : State} :
    step s = .next t ↔ s.status = .running ∧
      ((∃ c, decode (s.mem.read s.pc) = .error c ∧ t = takeFault c s) ∨
        ∃ i, decode (s.mem.read s.pc) = .ok i ∧ ExecEffect s i t) := by
  refine ⟨step_effect, ?_⟩
  rintro ⟨hr, ⟨c, hc, rfl⟩ | ⟨i, hi, he⟩⟩
  · exact step_of_decode_error hr hc
  · exact (step_eq_exec hr hi).trans (exec_eq_next_iff.2 he)

/-- An executed instruction leaves the status as it was, halts, or starves. -/
theorem ExecEffect.ends_cases {i : Instr} {s t : State} (he : ExecEffect s i t) :
    t.status = s.status ∨ ((∃ m1 m2 m3, i = .halt m1 m2 m3) ∧ t = s.setHalted) ∨
      ((∃ m1 m2 m3, i = .inp m1 m2 m3) ∧ s.inq = [] ∧ t = takeFault .inputStarvation s) := by
  cases he with
  | starve hq => exact .inr (.inr ⟨⟨_, _, _, rfl⟩, hq, rfl⟩)
  | halt => exact .inr (.inl ⟨⟨_, _, _, rfl⟩, rfl⟩)
  | store | input | output | jumpTrue | jumpFalse | adjustBase => exact .inl rfl

/-- A cause raised by Decode is explained by the word at PC. -/
theorem causeExplained_of_decode_error {s : State} {c : Cause} (h : decode (s.mem.read s.pc) = .error c) :
    causeExplained c s := by
  rcases decode_error_cause h with rfl | rfl | rfl <;> exact h

/-- A step completes, halts at a HALT word, or raises a cause that the state explains (40_cycle_and_operands.md R80). -/
theorem step_ends_cases {s t : State} (h : step s = .next t) :
    t.status = .running ∨ ((∃ m1 m2 m3, fetchInstr s = .ok (.halt m1 m2 m3)) ∧ t = s.setHalted) ∨
      ∃ c, causeExplained c s ∧ t = takeFault c s := by
  obtain ⟨hr, ⟨c, hc, rfl⟩ | ⟨i, hi, he⟩⟩ := step_effect h
  · exact .inr (.inr ⟨c, causeExplained_of_decode_error hc, rfl⟩)
  · rcases he.ends_cases with hst | ⟨⟨m1, m2, m3, rfl⟩, rfl⟩ | ⟨⟨m1, m2, m3, rfl⟩, hq, rfl⟩
    · exact .inl (hst.trans hr)
    · exact .inr (.inl ⟨⟨m1, m2, m3, hi⟩, rfl⟩)
    · exact .inr (.inr ⟨.inputStarvation, ⟨⟨m1, m2, m3, hi⟩, hq⟩, rfl⟩)

/-- A step that leaves FAULT set raised a cause that the state before explains, and changed nothing else. -/
theorem eq_takeFault_of_step {s t : State} (h : step s = .next t) (hf : t.fault ≠ none) :
    ∃ c, causeExplained c s ∧ t = takeFault c s := by
  have hs : s.fault = none := ((State.status_running_iff s).1 (step_effect h).1).1
  rcases step_ends_cases h with hr | ⟨-, rfl⟩ | hraise
  · exact absurd ((State.status_running_iff t).1 hr).1 hf
  · exact absurd hs hf
  · exact hraise

/-! ### The cause records -/

/-- The state after a fatal condition, its record written out (10_state.md R16). -/
theorem takeFault_eq_withRecord (c : Cause) {s : State} {op : Int} (hop : faultOpcode (s.mem.read s.pc) = op) :
    takeFault c s = s.withRecord ⟨c, s.mem.read s.pc, op, s.pc, s.rb⟩ := by
  subst hop
  rfl

/-- The record of a word in 0..99999 (10_state.md R16). -/
theorem takeFault_in_range (c : Cause) {s : State} (h0 : 0 ≤ s.mem.read s.pc) (h9 : s.mem.read s.pc ≤ 99999) :
    takeFault c s = s.withRecord ⟨c, s.mem.read s.pc, s.mem.read s.pc % 100, s.pc, s.rb⟩ :=
  takeFault_eq_withRecord c (if_pos ⟨h0, h9⟩)

/-- The record of a word out of range (10_state.md R16, the spec's decision D18). -/
theorem takeFault_out_of_range (c : Cause) {s : State} (h : s.mem.read s.pc < 0 ∨ 99999 < s.mem.read s.pc) :
    takeFault c s = s.withRecord ⟨c, s.mem.read s.pc, s.mem.read s.pc, s.pc, s.rb⟩ :=
  takeFault_eq_withRecord c (if_neg (by omega))

/-- The record of a word that decodes to IN: its opcode field is 3. -/
theorem takeFault_at_inp (c : Cause) {s : State} {m1 m2 m3 : Mode} (hi : decode (s.mem.read s.pc) = .ok (.inp m1 m2 m3)) :
    takeFault c s = s.withRecord ⟨c, s.mem.read s.pc, 3, s.pc, s.rb⟩ := by
  obtain ⟨h0, h9⟩ := ((decode_ok_iff _ _).1 hi).1
  rw [takeFault_in_range c h0 h9, opcode_field_of_decode_ok hi]
  rfl

/-- Settles O8: the opcode field names no opcode, so Decode rejects the word before it looks at a mode digit. -/
theorem unknownOpcodeFaults : Obligations.UnknownOpcodeFaults := by
  refine ⟨rfl, fun s hr h0 h9 hop => ?_⟩
  have hfield : (fieldsOf (s.mem.read s.pc).toNat).opcode ∉ [1, 2, 3, 4, 5, 6, 7, 8, 9, 99] := by
    simp only [fieldsOf, List.mem_cons, List.not_mem_nil, or_false] at hop ⊢
    omega
  rw [← takeFault_in_range _ h0 h9]
  exact step_of_decode_error hr ((decode_in_range h0 h9).trans (decodeFields_unknownOpcode hfield))

/-- Settles O9: the opcode is one of the ten and a digit names no mode. -/
theorem badModeFaults : Obligations.BadModeFaults := by
  refine ⟨rfl, fun s hr h0 h9 hop hdigit => ?_⟩
  have hfield : (fieldsOf (s.mem.read s.pc).toNat).opcode ∈ [1, 2, 3, 4, 5, 6, 7, 8, 9, 99] := by
    simp only [fieldsOf, List.mem_cons, List.not_mem_nil, or_false] at hop ⊢
    omega
  rw [← takeFault_in_range _ h0 h9]
  refine step_of_decode_error hr ((decode_in_range h0 h9).trans (decodeFields_badMode hfield ?_))
  simp only [fieldsOf, digit]
  omega

/-- Settles O10: Decode rejects the word before it looks at a field. -/
theorem wordOutOfRangeFaults : Obligations.WordOutOfRangeFaults :=
  ⟨rfl, fun _ hr hout => (step_of_decode_error hr (decode_out_of_range hout)).trans
    (congrArg _ (takeFault_out_of_range _ hout))⟩

/-- Settles O11: IN on an empty queue by `exec_inp_nil`; the converse because a raised cause is explained by its state. -/
theorem inputStarvationFaults : Obligations.InputStarvationFaults := by
  refine ⟨rfl, fun m1 m2 m3 s hr hi hq => ?_, fun s t f hr h hf hcause => ?_, fun m1 m2 m3 s hr hi => ?_⟩
  · rw [step_eq_exec hr hi, exec_inp_nil _ _ _ s hq, takeFault_at_inp _ hi]
  · obtain ⟨c, hc, rfl⟩ := eq_takeFault_of_step h (by simp [hf])
    cases hf
    cases hcause
    exact ⟨hc.2, hc.1⟩
  · exact ⟨_, (step_eq_exec hr hi).trans (exec_halt ..), State.setHalted_status hr, rfl⟩

/-- Settles O12: the next state is `takeFault`, which changes FAULT alone. -/
theorem faultEntryIsPrecise : Obligations.FaultEntryIsPrecise := by
  intro s t h hf
  obtain ⟨c, -, rfl⟩ := eq_takeFault_of_step h hf
  exact ⟨⟨c, rfl⟩, takeFault_status c s, ((State.status_running_iff s).1 (step_effect h).1).2, rfl⟩

/-- Settles O13: no state explains a cause of code 5 on this hardware. -/
theorem codeFiveNeverOccurs : Obligations.CodeFiveNeverOccurs := by
  intro s t f h hf
  obtain ⟨c, hc, rfl⟩ := eq_takeFault_of_step h (by simp [hf])
  cases hf
  cases c with
  | unknownOpcode | badMode | wordRange | inputStarvation => simp [faultRecord, causeCode]
  | cellRange => exact hc.elim

/-- A step is enabled exactly in RUNNING (40_cycle_and_operands.md R80). -/
theorem exists_step_iff (s : State) : (∃ t, step s = .next t) ↔ s.status = .running := by
  refine ⟨fun ⟨_, h⟩ => (step_effect h).1, fun hr => ?_⟩
  cases hd : decode (s.mem.read s.pc) with
  | error c => exact ⟨_, step_of_decode_error hr hd⟩
  | ok i =>
    obtain ⟨t, ht, -⟩ := exec_next_effect i s
    exact ⟨t, (step_eq_exec hr hd).trans ht⟩

/-- Settles O14: the three outcomes are those of `step_ends_cases`. -/
theorem runningMachineAlwaysSteps : Obligations.RunningMachineAlwaysSteps := by
  refine fun s => ⟨exists_step_iff s, fun t h => ?_⟩
  rcases step_ends_cases h with hr | ⟨-, rfl⟩ | ⟨c, -, rfl⟩
  · exact .inl hr
  · exact .inr (.inl rfl)
  · exact .inr (.inr ⟨_, rfl⟩)

/-- Settles O7, by `step_eq_exec`. -/
theorem stepRunsDecodedInstruction : Obligations.StepRunsDecodedInstruction :=
  fun _ _ => step_eq_exec

/-- A run outside RUNNING changes nothing (10_state.md R17). -/
theorem run_of_not_running {s : State} (hr : s.status ≠ .running) (n : Nat) : run n s = s :=
  runBy_succ_stop (step_ne_next hr) n

/-- Settles O15: in both ends `stopReason` gives the outcome, and there is no step. -/
theorem noStepAfterTheEnd : Obligations.NoStepAfterTheEnd := by
  constructor
  · intro s hf hh
    have hst : s.status = .halted := by simp [State.status, hf, hh]
    exact ⟨hst, by simp [step, stopReason, hf, hh], run_of_not_running (by simp [hst])⟩
  · intro s f hf
    have hst : s.status = .faulted := by simp [State.status, hf]
    exact ⟨hst, by simp [step, stopReason, hf], run_of_not_running (by simp [hst])⟩

/-- Settles O6: no meaning looks at the mode of a parameter its opcode does not have. -/
theorem unusedModeDigitsHaveNoEffect : Obligations.UnusedModeDigitsHaveNoEffect :=
  fun _ _ _ _ _ _ _ => ⟨rfl, rfl, rfl, rfl, rfl, rfl⟩

end Sys2Proof.Machine
end

section
/-!
PROOFS. Memory as data (20_memory.md, log entry 1): a memory in canonical form is fixed by its reads; what one instruction does
to memory; and the reset state (70_reset_and_hazards.md).
-/

namespace Sys2Proof.Machine

/-- Where addresses strictly rise, a read of a listed address gives its entry's content. -/
theorem readCells_of_mem {cs : List MemCell} (hcs : cs.Pairwise (fun c d => c.1 < d.1)) {c : MemCell} (hc : c ∈ cs) :
    readCells c.1 cs = c.2 := by
  induction cs with
  | nil => nomatch hc
  | cons d rest ih =>
    obtain ⟨hd, hrest⟩ := List.pairwise_cons.1 hcs
    rcases List.mem_cons.1 hc with rfl | hc
    · exact if_pos rfl
    · rw [readCells, if_neg (hd c hc).ne, ih hrest hc]

/-- A memory in canonical form lists the cells that do not read 0, with what they read (10_state.md R18). -/
theorem Memory.mem_cells_iff {m : Memory} (h : m.wf) (c : MemCell) : c ∈ m.cells ↔ c.2 ≠ 0 ∧ m.read c.1 = c.2 := by
  refine ⟨fun hc => ⟨h.2 c hc, readCells_of_mem h.1 hc⟩, fun ⟨h0, hread⟩ => ?_⟩
  rcases m.read_mem c.1 with hzero | hmem
  · exact absurd (hread.symm.trans hzero) h0
  · rwa [hread] at hmem

/-- Memories in canonical form that read the same are the same list: they have the same entries in the one rising order. -/
theorem Memory.ext_read {m n : Memory} (hm : m.wf) (hn : n.wf) (h : ∀ a, m.read a = n.read a) : m = n := by
  have hirrefl : Std.Irrefl (fun c d : MemCell => c.1 < d.1) := ⟨fun c => lt_irrefl c.1⟩
  have hantisymm : Std.Antisymm (fun c d : MemCell => c.1 < d.1) := ⟨fun c d hcd hdc => absurd hcd hdc.asymm⟩
  have hcells : m.cells = n.cells :=
    hm.1.eq_of_mem_iff hn.1 fun c => by rw [Memory.mem_cells_iff hm, Memory.mem_cells_iff hn, h]
  obtain ⟨cs⟩ := m
  exact congrArg Memory.mk hcells

/-- Settles O38, by `Memory.ext_read`. -/
theorem memoriesThatReadTheSameAreEqual : Obligations.MemoriesThatReadTheSameAreEqual :=
  fun _ _ => Memory.ext_read

/-- Settles O36: the later writes leave the cell alone (`Memory.read_foldl_write_of_ne`). -/
theorem readGivesTheLatestWrite : Obligations.ReadGivesTheLatestWrite := by
  intro m a v later hlater
  rw [Memory.read_foldl_write_of_ne _ hlater, Memory.read_write, if_pos rfl]

/-- Settles O37: the memories read the same everywhere, so in canonical form they are the same. -/
theorem writingZeroLeavesNoTrace : Obligations.WritingZeroLeavesNoTrace := by
  refine ⟨fun m a b v => m.read_write a b v, fun m a v hm h0 => ⟨?_, ?_⟩⟩
  · refine Memory.ext_read (Memory.write_wf hm a 0) hm fun b => ?_
    rw [Memory.read_write]
    split
    · rename_i hb; rw [hb, h0]
    · rfl
  · refine Memory.ext_read (Memory.write_wf (Memory.write_wf hm a v) a 0) hm fun b => ?_
    rw [Memory.read_write, Memory.read_write]
    split
    · rename_i hb; rw [hb, h0]
    · rfl

/-! ### Memory after an instruction -/

/-- An instruction leaves memory as it was, or writes the value of `storedCell` to its cell. -/
theorem ExecEffect.mem_cases {i : Instr} {s t : State} (he : ExecEffect s i t) :
    (storedCell i s = none ∧ t.mem = s.mem) ∨ ∃ a v, storedCell i s = some (a, v) ∧ t.mem = s.mem.write a v := by
  cases he with
  | store _ hv => exact .inr ⟨_, _, hv, rfl⟩
  | starve hq => exact .inl ⟨by simp [storedCell, hq], rfl⟩
  | input hq => exact .inr ⟨_, _, by simp [storedCell, hq], rfl⟩
  | output | jumpTrue | jumpFalse | adjustBase | halt => exact .inl ⟨rfl, rfl⟩

/-- Settles O29: memory after the instruction by `ExecEffect.mem_cases`. -/
theorem memoryAfterAnInstruction : Obligations.MemoryAfterAnInstruction := by
  intro i s t h b
  rcases (exec_effect h).mem_cases with ⟨hnone, hmem⟩ | ⟨a, v, hsome, hmem⟩
  · rw [hnone, hmem]
  · rw [hsome, hmem, Memory.read_write]

/-- An instruction that stores leaves the machine RUNNING: it neither halts nor raises. -/
theorem ExecEffect.status_of_storedCell {i : Instr} {s t : State} {a v : Int} (he : ExecEffect s i t)
    (hstored : storedCell i s = some (a, v)) : t.status = s.status := by
  rcases he.ends_cases with hst | ⟨⟨m1, m2, m3, rfl⟩, -⟩ | ⟨⟨m1, m2, m3, rfl⟩, hq, -⟩
  · exact hst
  · cases hstored
  · simp [storedCell, hq] at hstored

/-- Settles O30: the store is the only change of memory, and the machine is still RUNNING, so the next step is decided by what
PC then reads. -/
theorem nextFetchSeesTheStore : Obligations.NextFetchSeesTheStore := by
  intro i s t a v hr hi hstored h
  have hexec : exec i s = .next t := (step_eq_exec hr hi).symm.trans h
  have he := exec_effect hexec
  have hmem : storesOnly s t a v := he.storesOnly_of_storedCell hstored
  have hrt : t.status = .running := (he.status_of_storedCell hstored).trans hr
  refine ⟨hexec, fun hpc => ?_, fun hpc => (hmem t.pc).trans (if_neg hpc)⟩
  have hread : t.mem.read t.pc = v := (hmem t.pc).trans (if_pos hpc)
  exact ⟨fun j hj => step_eq_exec hrt (hread ▸ hj), fun c hc => step_of_decode_error hrt (hread ▸ hc)⟩

/-! ### Reset and the invariant -/

theorem State.resetWith_status (image : List Int) : (State.resetWith image).status = .running := rfl

/-- Entry k of an image is at address k (70_reset_and_hazards.md R181). -/
theorem imageMemory_read_entry {image : List Int} {k : Nat} (h : k < image.length) :
    (imageMemory image).read k = image[k] := by
  rw [imageMemory, Memory.read_loadAt, if_pos (Int.natCast_nonneg k), Int.sub_zero, Int.toNat_natCast,
    List.getD_eq_getElem _ _ h]

/-- Settles O42: memory by `imageMemory_read_entry` and `imageMemory_read_outside`; the first step of State.reset fetches 0. -/
theorem resetStateOfAnImage : Obligations.ResetStateOfAnImage :=
  ⟨fun image => ⟨rfl, rfl, State.resetWith_status image, rfl, rfl, rfl, rfl, fun _ => imageMemory_read_entry,
    fun _ => imageMemory_read_outside⟩, State.resetWith_nil, step_of_decode_error rfl rfl⟩

/-- In RUNNING the invariant speaks of memory alone: there is no record and no halt. -/
theorem State.inv_of_running {s : State} (hr : s.status = .running) (hm : s.mem.wf) : s.Inv := by
  obtain ⟨hfault, hhalted⟩ := (State.status_running_iff s).1 hr
  exact ⟨hm, fun _ => hhalted, fun h => absurd h (by simp [hhalted]), fun f hf => by simp [hfault] at hf⟩

/-- Settles O43: the reset state is RUNNING, and an image is loaded in canonical form. -/
theorem resetMeetsTheInvariant : Obligations.ResetMeetsTheInvariant :=
  ⟨State.inv_of_running rfl State.reset_mem_wf, fun image =>
    State.inv_of_running (State.resetWith_status image) (imageMemory_wf image)⟩

/-- A step keeps the canonical form of memory. -/
theorem step_keeps_mem_wf {s t : State} (h : step s = .next t) (hm : s.mem.wf) : t.mem.wf := by
  obtain ⟨-, ⟨c, -, rfl⟩ | ⟨i, -, he⟩⟩ := step_effect h
  · exact hm
  · rcases he.mem_cases with ⟨-, hmem⟩ | ⟨a, v, -, hmem⟩
    · rwa [hmem]
    · exact hmem ▸ Memory.write_wf hm a v

/-- Settles O44: a state that is still RUNNING needs memory alone; one that halted has PC at the HALT word it executed; one
that raised holds the record of a cause it explains. -/
theorem everyStepKeepsTheInvariant : Obligations.EveryStepKeepsTheInvariant := by
  intro s t hs h
  have hm : t.mem.wf := step_keeps_mem_wf h hs.memory
  obtain ⟨hfault, hhalted⟩ := (State.status_running_iff s).1 (step_effect h).1
  rcases step_ends_cases h with hr | ⟨hhalt, rfl⟩ | ⟨c, hc, rfl⟩
  · exact State.inv_of_running hr hm
  · exact ⟨hm, fun hf => absurd hfault hf, fun _ => hhalt, fun f hf => nomatch hfault.symm.trans hf⟩
  · exact ⟨hm, fun _ => hhalted, fun hh => (nomatch hhalted.symm.trans hh), fun f hf => by
      cases hf
      exact ⟨rfl, hc⟩⟩

end Sys2Proof.Machine
end

section
/-!
PROOFS. The queues (42_input_output.md): what a step takes from INQ and appends to OUTQ, that it looks at no other entry of
either, and from these the statements about input, output, runs and resolution.
-/

namespace Sys2Proof.Machine

/-- What executing an instruction takes from INQ: the oldest entry for IN, if there is one (42_input_output.md R110). -/
def consumedBy (i : Instr) (s : State) : List Int :=
  match i with
  | .inp _ _ _ => s.inq.take 1
  | _ => []

/-- What executing an instruction appends to OUTQ (42_input_output.md R111). -/
def emittedBy (i : Instr) (s : State) : List Int :=
  match i with
  | .out m1 _ _ => [(resolve s 1 m1).value]
  | _ => []

/-- s with other queues. -/
def State.withQueues (s : State) (inq outq : List Int) : State := { s with inq := inq, outq := outq }

/-- A three-parameter store has no part in the queues, neither reading nor writing one. -/
theorem store_ignores_queues {i : Instr} {m1 m2 m3 : Mode}
    (hi : i = .add m1 m2 m3 ∨ i = .mul m1 m2 m3 ∨ i = .lt m1 m2 m3 ∨ i = .eq m1 m2 m3) (s : State) :
    consumedBy i s = [] ∧ emittedBy i s = [] ∧ ∀ q p, storedCell i (s.withQueues q p) = storedCell i s := by
  rcases hi with rfl | rfl | rfl | rfl <;> exact ⟨rfl, rfl, fun _ _ => rfl⟩

/-- An instruction takes its input from the front of INQ and appends its output to the end of OUTQ. -/
theorem ExecEffect.queues {i : Instr} {s t : State} (he : ExecEffect s i t) :
    s.inq = consumedBy i s ++ t.inq ∧ t.outq = s.outq ++ emittedBy i s := by
  cases he with
  | store hi =>
    obtain ⟨hin, hout, -⟩ := store_ignores_queues hi s
    simp [hin, hout]
  | starve hq | input hq => simp [consumedBy, emittedBy, hq]
  | output | jumpTrue | jumpFalse | adjustBase | halt => simp [consumedBy, emittedBy]

/-- An instruction does the same with other entries behind those it takes from INQ and any in OUTQ, unless it starves and there
are now entries to take. -/
theorem ExecEffect.withQueues {i : Instr} {s t : State} (he : ExecEffect s i t) {r : List Int} (p : List Int)
    (hr : s.inq = [] → r = [] ∨ t.fault = none) :
    ExecEffect (s.withQueues (consumedBy i s ++ r) p) i (t.withQueues r (p ++ emittedBy i s)) := by
  have silent (hin : consumedBy i s = []) (hout : emittedBy i s = [])
      (h : ExecEffect (s.withQueues r p) i (t.withQueues r p)) :
      ExecEffect (s.withQueues (consumedBy i s ++ r) p) i (t.withQueues r (p ++ emittedBy i s)) := by
    rwa [hin, hout, List.append_nil]
  cases he with
  | store hi hv =>
    obtain ⟨hin, hout, hcell⟩ := store_ignores_queues hi s
    exact silent hin hout (.store hi ((hcell r p).trans hv))
  | starve hq =>
    obtain rfl | hf := hr hq
    · exact silent (by simp [consumedBy, hq]) rfl (.starve rfl)
    · nomatch hf
  | @input m1 m2 m3 v rest hq =>
    have hin : consumedBy (.inp m1 m2 m3) s = [v] := by simp [consumedBy, hq]
    have hout : emittedBy (.inp m1 m2 m3) s = [] := rfl
    rw [hin, hout, List.append_nil]
    exact .input rfl
  | output => exact .output
  | jumpTrue => exact silent rfl rfl .jumpTrue
  | jumpFalse => exact silent rfl rfl .jumpFalse
  | adjustBase => exact silent rfl rfl .adjustBase
  | halt => exact silent rfl rfl .halt

/-! ### The same of a step -/

section

variable {s t : State}

theorem nextInput_of_decode {i : Instr} (hr : s.status = .running) (hi : decode (s.mem.read s.pc) = .ok i) :
    nextInput s = consumedBy i s := by
  have hfetch : fetchInstr s = .ok i := hi
  simp only [nextInput, (stopReason_eq_none_iff s).2 hr, hfetch]
  cases i <;> rfl

theorem nextOutput_of_decode {i : Instr} (hr : s.status = .running) (hi : decode (s.mem.read s.pc) = .ok i) :
    nextOutput s = emittedBy i s := by
  have hfetch : fetchInstr s = .ok i := hi
  simp only [nextOutput, (stopReason_eq_none_iff s).2 hr, hfetch]
  cases i <;> rfl

theorem nextInput_of_decode_error {c : Cause} (hc : decode (s.mem.read s.pc) = .error c) : nextInput s = [] := by
  have hfetch : fetchInstr s = .error c := hc
  simp [nextInput, hfetch]

theorem nextOutput_of_decode_error {c : Cause} (hc : decode (s.mem.read s.pc) = .error c) : nextOutput s = [] := by
  have hfetch : fetchInstr s = .error c := hc
  simp [nextOutput, hfetch]

/-- `ExecEffect.queues` of a step. -/
theorem step_queues (h : step s = .next t) : s.inq = nextInput s ++ t.inq ∧ t.outq = s.outq ++ nextOutput s := by
  obtain ⟨hr, ⟨c, hc, rfl⟩ | ⟨i, hi, he⟩⟩ := step_effect h
  · simp [nextInput_of_decode_error hc, nextOutput_of_decode_error hc]
  · rw [nextInput_of_decode hr hi, nextOutput_of_decode hr hi]
    exact he.queues

/-- `ExecEffect.withQueues` of a step. -/
theorem step_withQueues (h : step s = .next t) {q r p p' : List Int} (hr : s.inq = [] → r = [] ∨ t.fault = none)
    (hq : q = nextInput s ++ r) (hp : p' = p ++ nextOutput s) :
    step (s.withQueues q p) = .next (t.withQueues r p') := by
  obtain ⟨hrun, ⟨c, hc, rfl⟩ | ⟨i, hi, he⟩⟩ := step_effect h
  · rw [nextInput_of_decode_error hc] at hq
    rw [nextOutput_of_decode_error hc, List.append_nil] at hp
    rw [hq, hp]
    exact step_of_decode_error (s := s.withQueues r p) hrun hc
  · rw [nextInput_of_decode hrun hi] at hq
    rw [nextOutput_of_decode hrun hi] at hp
    rw [hq, hp]
    exact step_eq_next_iff.2 ⟨hrun, .inr ⟨i, hi, he.withQueues p hr⟩⟩

/-- RUNNING machines that agree on M, PC and RB differ in their queues alone. -/
theorem State.eq_withQueues (hrs : s.status = .running) (hrt : t.status = .running) (hmem : t.mem = s.mem)
    (hpc : t.pc = s.pc) (hrb : t.rb = s.rb) : t = s.withQueues t.inq t.outq := by
  obtain ⟨hfs, hhs⟩ := (State.status_running_iff s).1 hrs
  obtain ⟨hft, hht⟩ := (State.status_running_iff t).1 hrt
  cases t
  simp_all [State.withQueues]

/-- Another queue with the same head holds in front what the next step takes. -/
theorem exists_eq_nextInput_append {q : List Int} (hq : q.head? = s.inq.head?) : ∃ r, q = nextInput s ++ r := by
  have htake : nextInput s = [] ∨ nextInput s = s.inq.take 1 := by
    unfold nextInput
    split
    · exact .inr rfl
    · exact .inl rfl
  rcases htake with hnil | htake
  · exact ⟨q, by simp [hnil]⟩
  · exact ⟨q.drop 1, by rw [htake, List.take_one, ← hq, ← List.take_one, List.take_append_drop]⟩

end

/-- Settles O16: the two states differ in their queues alone, and both queues hold in front what the step takes. -/
theorem stepDependsOnMemoryPcRbAndInputHead : Obligations.StepDependsOnMemoryPcRbAndInputHead := by
  intro s s' t hr' hmem hpc hrb hhead h
  obtain ⟨hin, hout⟩ := step_queues h
  obtain ⟨r, hr⟩ := exists_eq_nextInput_append hhead
  have hempty : s.inq = [] → r = [] ∨ t.fault = none := by
    intro hnil
    have hq : s'.inq = [] := by simpa [hnil] using hhead
    exact .inl (List.append_eq_nil_iff.1 (hr.symm.trans hq)).2
  have hstep : step s' = .next (t.withQueues r (s'.outq ++ nextOutput s)) := by
    rw [State.eq_withQueues (step_effect h).1 hr' hmem hpc hrb]
    exact step_withQueues h hempty hr rfl
  refine ⟨_, nextOutput s, (nextInput s).length, hstep, rfl, rfl, rfl, rfl, rfl, hout, rfl, ?_, ?_⟩
  · rw [hin, List.drop_left]
  · rw [hr, List.drop_left]
    rfl

/-- Settles O31: the step with other entries in OUTQ and the same INQ. -/
theorem outputQueueIsNeverRead : Obligations.OutputQueueIsNeverRead := by
  intro s t q h
  obtain ⟨hin, hout⟩ := step_queues h
  have hempty : s.inq = [] → t.inq = [] ∨ t.fault = none := fun hnil =>
    .inl (List.append_eq_nil_iff.1 (hin.symm.trans hnil)).2
  exact step_withQueues h hempty hin (by rw [hout, List.append_assoc])

/-- Settles O32: the pushed entry stands behind what the step takes; and an IN that would starve finds it at the head. -/
theorem pushedInputCommutesWithStep : Obligations.PushedInputCommutesWithStep := by
  refine ⟨fun s t v h hf => ?_, fun m1 m2 m3 s v hr hi hq => ?_⟩
  · obtain ⟨hin, hout⟩ := step_queues h
    exact step_withQueues h (fun _ => .inr hf) (by rw [hin, List.append_assoc]) hout
  · have hpush : (s.pushInput v).inq = [v] := by simp [hq]
    exact ⟨_, (step_eq_exec (s := s.pushInput v) hr hi).trans (exec_inp_cons m1 m2 m3 _ v [] hpush), hr, rfl,
      fun b => s.mem.read_write _ b v⟩

/-! ### Runs -/

theorem run_zero (s : State) : run 0 s = s := rfl

theorem run_one_of_step {s t : State} (h : step s = .next t) : run 1 s = t := runBy_succ_next h 0

/-- `step_queues` of a run of one step, which outside RUNNING does nothing. -/
theorem run_one_queues (s : State) : s.inq = nextInput s ++ (run 1 s).inq ∧ (run 1 s).outq = s.outq ++ nextOutput s := by
  by_cases hr : s.status = .running
  · obtain ⟨t, ht⟩ := (exists_step_iff s).2 hr
    rw [run_one_of_step ht]
    exact step_queues ht
  · have hstop : stopReason s ≠ none := mt (stopReason_eq_none_iff s).1 hr
    simp [run_of_not_running hr, nextInput, nextOutput, hstop]

/-- Settles O33, by induction on the number of steps. -/
theorem queuesAreFirstInFirstOut : Obligations.QueuesAreFirstInFirstOut := by
  intro n
  induction n with
  | zero => exact fun s => ⟨rfl, (List.append_nil _).symm⟩
  | succ n ih =>
    intro s
    obtain ⟨hin, hout⟩ := run_one_queues s
    obtain ⟨ihin, ihout⟩ := ih (run 1 s)
    rw [run_succ, inputHistory, outputHistory, List.append_assoc, ← ihin, ihout, hout, List.append_assoc]
    exact ⟨hin, rfl⟩

theorem run_add (n m : Nat) (s : State) : run (n + m) s = run m (run n s) := by
  induction n generalizing s with
  | zero => rw [Nat.zero_add, run_zero]
  | succ n ih => rw [Nat.succ_add, run_succ, ih, ← run_succ]

/-- Settles O34, by `run_add`: what is left of the run starts where the first part ended. -/
theorem runEndsForGood : Obligations.RunEndsForGood :=
  fun n m s => ⟨run_add n m s, fun hr => (run_add n m s).trans (run_of_not_running hr m)⟩

/-! ### IN, OUT and resolution -/

/-- Settles O19: the words by `decode_instr_word`; the next state by `exec_inp_cons`. -/
theorem inStoresTheOldestInput : Obligations.InStoresTheOldestInput :=
  ⟨fun m1 m2 m3 => ⟨decode_instr_word .inp m1 m2 m3, rfl⟩, fun m1 m2 m3 s v rest hq =>
    ⟨_, exec_inp_cons m1 m2 m3 s v rest hq, rfl, rfl, storesOnly_writeMem_advance s _ _ 2, rfl, rfl, rfl, rfl⟩⟩

/-- Settles O20: the words by `decode_instr_word`; the next state by `exec_out`. -/
theorem outAppendsTheValue : Obligations.OutAppendsTheValue :=
  ⟨fun m1 m2 m3 => ⟨decode_instr_word .out m1 m2 m3, rfl⟩, exec_out⟩

/-- Settles O39: `resolve` in each mode. -/
theorem resolveInEachMode : Obligations.ResolveInEachMode :=
  fun s k => ⟨rfl, resolve_immediate s k, rfl⟩

/-- Settles O40: `resolve` reads M, PC and RB and nothing else. -/
theorem resolutionIsPure : Obligations.ResolutionIsPure := by
  intro s t k m hmem hpc hrb
  simp only [resolve, rawOperand, hmem, hpc, hrb]

end Sys2Proof.Machine
end

section
/-!
PROOFS. A finite CELL_RANGE (41_arithmetic.md R103): what an instruction forms, exactly when it stays in the range, and that a
step keeps what the machine holds in the range.
-/

namespace Sys2Proof.Machine

/-- The values of PC and RB that an instruction leading to t forms: HALT forms none, and ARB alone forms an RB. -/
def formedRegisters (i : Instr) (t : State) : List Int :=
  match i with
  | .halt _ _ _ => []
  | .arb _ _ _ => [t.rb, t.pc]
  | _ => [t.pc]

/-- The integers that an instruction leading from s to t forms, all of which must lie in the range (log entry 8). -/
def formedValues (i : Instr) (s t : State) : List Int :=
  (usedParams i).flatMap (fun p => paramAddrs s p.1 p.2) ++ (storedCell i s).toList.map Prod.snd ++ formedRegisters i t

/-- The condition of R103 in the spec's words: operand cells, effective addresses, stored value, new PC and new RB lie in the
range. -/
def StaysInRange (r : CellRange) (i : Instr) (s t : State) : Prop :=
  (∀ p ∈ usedParams i, inRange r (s.pc + p.1) = true ∧ inRange r (resolve s p.1 p.2).addr = true) ∧
    (∀ a v, storedCell i s = some (a, v) → inRange r v = true) ∧ inRange r t.pc = true ∧ inRange r t.rb = true

section

variable {r : CellRange} {i : Instr} {s t : State}

/-- Under any range, an instruction that does not starve ends as on this hardware if what it forms lies in the range. -/
theorem ExecEffect.execWithin_eq (he : ExecEffect s i t) (hq : i.opcode = .inp → s.inq ≠ []) :
    execWithin r i s = completeWithin r (formedValues i s t) s t := by
  cases he with
  | store hi hv => rcases hi with rfl | rfl | rfl | rfl <;> cases hv <;> rfl
  | starve hnil => exact absurd hnil (hq rfl)
  | input hcons => simp [execWithin, inWithin, hcons, formedValues, formedRegisters, usedParams, storedCell]
  | jumpTrue =>
    simp only [execWithin, jtWithin, jumpWhen, decide_eq_true_eq]
    rfl
  | jumpFalse =>
    simp only [execWithin, jfWithin, jumpWhen, decide_eq_true_eq]
    rfl
  | output | adjustBase | halt => rfl

/-- On a state within the range the registers an instruction does not form lie in it already. -/
theorem ExecEffect.forall_formedRegisters_iff (he : ExecEffect s i t) (hs : s.Within r) :
    (∀ v ∈ formedRegisters i t, inRange r v = true) ↔ inRange r t.pc = true ∧ inRange r t.rb = true := by
  cases he with
  | store hi => rcases hi with rfl | rfl | rfl | rfl <;> simp [formedRegisters, hs.rb]
  | starve | input | output | jumpTrue | jumpFalse => simp [formedRegisters, hs.rb]
  | adjustBase => simp [formedRegisters, and_comm]
  | halt => simp [formedRegisters, hs.pc, hs.rb]

/-- On a state within the range, what an instruction forms lies in it exactly where the condition of R103 holds. -/
theorem ExecEffect.forall_formedValues_iff (he : ExecEffect s i t) (hs : s.Within r) :
    (∀ v ∈ formedValues i s t, inRange r v = true) ↔ StaysInRange r i s t := by
  have hparams : (∀ v ∈ (usedParams i).flatMap (fun p => paramAddrs s p.1 p.2), inRange r v = true) ↔
      ∀ p ∈ usedParams i, inRange r (s.pc + p.1) = true ∧ inRange r (resolve s p.1 p.2).addr = true := by
    rw [List.forall_mem_flatMap]
    exact forall₂_congr fun p _ => by simp [paramAddrs]
  have hstored : (∀ v ∈ (storedCell i s).toList.map Prod.snd, inRange r v = true) ↔
      ∀ a v, storedCell i s = some (a, v) → inRange r v = true := by
    rcases storedCell i s with - | ⟨a, v⟩ <;> simp
  rw [formedValues, List.forall_mem_append, List.forall_mem_append, hparams, hstored,
    he.forall_formedRegisters_iff hs, and_assoc, StaysInRange]

/-- An instruction that stays in the range does what it does on this hardware. -/
theorem ExecEffect.execWithin_of_stays (he : ExecEffect s i t) (hs : s.Within r) (hq : i.opcode = .inp → s.inq ≠ [])
    (hin : StaysInRange r i s t) : execWithin r i s = .next t := by
  rw [he.execWithin_eq hq]
  rcases completeWithin_cases r (formedValues i s t) s t with ⟨-, h⟩ | ⟨⟨v, hv, hout⟩, -⟩
  · exact h
  · simp [(he.forall_formedValues_iff hs).2 hin v hv] at hout

/-- An instruction that leaves the range raises code 5 and does nothing else. -/
theorem ExecEffect.execWithin_of_leaves (he : ExecEffect s i t) (hs : s.Within r) (hq : i.opcode = .inp → s.inq ≠ [])
    (hout : ¬ StaysInRange r i s t) : execWithin r i s = .next (takeFault .cellRange s) := by
  rw [he.execWithin_eq hq]
  rcases completeWithin_cases r (formedValues i s t) s t with ⟨hall, -⟩ | ⟨-, h⟩
  · exact absurd ((he.forall_formedValues_iff hs).1 hall) hout
  · exact h

/-- IN on an empty queue raises code 4 under any range (60_exceptions.md R166). -/
theorem execWithin_starve (r : CellRange) (hi : i.opcode = .inp) (hq : s.inq = []) :
    execWithin r i s = .next (takeFault .inputStarvation s) := by
  cases i with
  | inp m1 m2 m3 => exact inWithin_nil r m1 m2 m3 s hq
  | add | mul | out | jt | jf | lt | eq | arb | halt => nomatch hi

end

theorem execWithin_all : execWithin .all = exec := by
  funext i s
  cases i <;> rfl

theorem stepWithin_all : stepWithin .all = step := by
  funext s
  rw [stepWithin, execWithin_all]
  rfl

theorem runWithin_all : runWithin .all = run := by
  funext n s
  rw [runWithin, stepWithin_all, run]

/-- Settles O51: at the range of all integers the parametrised meanings are this hardware's. -/
theorem unboundedRangeIsThisHardware : Obligations.UnboundedRangeIsThisHardware :=
  fun i s n => ⟨by rw [execWithin_all], by rw [stepWithin_all], by rw [runWithin_all]⟩

/-- Settles O52: a starving IN is the same under any range, and any other instruction ends by `completeWithin`. -/
theorem finiteRangeCompletesOrFaults : Obligations.FiniteRangeCompletesOrFaults := by
  intro r i s
  obtain ⟨t, ht, he⟩ := exec_next_effect i s
  by_cases hq : i.opcode = .inp ∧ s.inq = []
  · obtain ⟨hi, hnil⟩ := hq
    exact .inl (by rw [← execWithin_all, execWithin_starve r hi hnil, execWithin_starve .all hi hnil])
  · rw [he.execWithin_eq fun hi hnil => hq ⟨hi, hnil⟩, ht]
    exact (completeWithin_cases r _ s t).imp And.right And.right

/-- Settles O53: the condition of its second clause is `StaysInRange`, and that of its third the negation. -/
theorem leavingTheRangeFaults : Obligations.LeavingTheRangeFaults := by
  intro r i s t hs h
  have he := exec_effect h
  refine ⟨execWithin_starve r, he.execWithin_of_stays hs, fun hq hout => he.execWithin_of_leaves hs hq ?_⟩
  rintro ⟨hparams, hstored, hpc, hrb⟩
  rcases hout with ⟨p, hp, hcell | haddr⟩ | ⟨a, v, hv, hval⟩ | hpc' | hrb'
  · simp [(hparams p hp).1] at hcell
  · simp [(hparams p hp).2] at haddr
  · simp [hstored a v hv] at hval
  · simp [hpc] at hpc'
  · simp [hrb] at hrb'

/-! ### The step under a range -/

theorem stepWithin_of_decode_error (r : CellRange) {s : State} {c : Cause} (hr : s.status = .running)
    (hc : decode (s.mem.read s.pc) = .error c) : stepWithin r s = .next (takeFault c s) := by
  have hfetch : fetchInstr s = .error c := hc
  simp only [stepWithin, (stopReason_eq_none_iff s).2 hr, hfetch]

theorem stepWithin_of_decode_ok (r : CellRange) {s : State} {i : Instr} (hr : s.status = .running)
    (hi : decode (s.mem.read s.pc) = .ok i) : stepWithin r s = execWithin r i s := by
  have hfetch : fetchInstr s = .ok i := hi
  simp only [stepWithin, (stopReason_eq_none_iff s).2 hr, hfetch]

/-- Settles O56: the word is checked by Decode, starvation by `execWithin_starve`, and only then the range. -/
theorem finiteRangeChecksInOrder : Obligations.FiniteRangeChecksInOrder := by
  refine fun r s => ⟨fun hr c hc => ?_, fun hr i hi => stepWithin_of_decode_ok r hr hi,
    fun hr hq m1 m2 m3 hi => ?_, fun hr t h => hr (stepWithin_cases h).1⟩
  · rw [stepWithin_of_decode_error r hr hc, step_of_decode_error hr hc]
    exact ⟨rfl, rfl⟩
  · rw [stepWithin_of_decode_ok r hr hi, execWithin_starve r rfl hq, takeFault_at_inp _ hi]

/-! ### What the machine holds stays in the range -/

section

variable {r : CellRange}

/-- A well-formed range holds 0, and so what an unlisted cell holds (41_arithmetic.md R103). -/
theorem CellRange.zero_inRange (hwf : r.wf = true) : inRange r 0 = true := by
  cases r with
  | all => rfl
  | between lo hi => simpa [CellRange.wf, inRange] using hwf

theorem State.Within.read_inRange {s : State} (hs : s.Within r) (hwf : r.wf = true) (a : Int) :
    inRange r (s.mem.read a) = true := by
  rcases s.mem.read_mem a with hzero | hmem
  · rw [hzero, CellRange.zero_inRange hwf]
  · exact (hs.cells _ hmem).2

/-- A resolved value is the content of some cell. -/
theorem State.Within.resolve_value_inRange {s : State} (hs : s.Within r) (hwf : r.wf = true) (k : Nat) (m : Mode) :
    inRange r (resolve s k m).value = true := by
  cases m <;> exact hs.read_inRange hwf _

/-- A write of a value in the range at an address in it keeps every cell in the range. -/
theorem Memory.write_within {m : Memory} {a v : Int} (hm : ∀ c ∈ m.cells, inRange r c.1 = true ∧ inRange r c.2 = true)
    (ha : inRange r a = true) (hv : inRange r v = true) :
    ∀ c ∈ (m.write a v).cells, inRange r c.1 = true ∧ inRange r c.2 = true := by
  intro c hc
  rcases Memory.write_mem hc with rfl | hc
  · exact ⟨ha, hv⟩
  · exact hm c hc

/-- Raising a fatal condition leaves what `Within` speaks of. -/
theorem State.Within.after_takeFault {s : State} (hs : s.Within r) (c : Cause) : (takeFault c s).Within r :=
  ⟨hs.pc, hs.rb, hs.cells, hs.inputs, hs.outputs⟩

/-- The cell an instruction stores to is the effective address of one of its parameters. -/
theorem storedCell_addr {i : Instr} {s : State} {a v : Int} (h : storedCell i s = some (a, v)) :
    ∃ p ∈ usedParams i, a = (resolve s p.1 p.2).addr := by
  cases i with
  | add m1 m2 m3 | mul m1 m2 m3 | lt m1 m2 m3 | eq m1 m2 m3 =>
    cases h
    exact ⟨(3, m3), by simp [usedParams], rfl⟩
  | inp m1 m2 m3 =>
    obtain ⟨w, -, hw⟩ := Option.map_eq_some_iff.1 h
    cases hw
    exact ⟨(1, m1), by simp [usedParams], rfl⟩
  | out | jt | jf | arb | halt => nomatch h

/-- What an instruction appends to OUTQ is a resolved value. -/
theorem State.Within.emittedBy_inRange {s : State} (hs : s.Within r) (hwf : r.wf = true) (i : Instr) :
    ∀ v ∈ emittedBy i s, inRange r v = true := by
  cases i with
  | out m1 m2 m3 => exact fun v hv => List.mem_singleton.1 hv ▸ hs.resolve_value_inRange hwf 1 m1
  | add | mul | inp | jt | jf | lt | eq | arb | halt => exact fun v hv => nomatch hv

/-- An instruction that stays in the range keeps what the machine holds in it. -/
theorem ExecEffect.within {i : Instr} {s t : State} (he : ExecEffect s i t) (hs : s.Within r) (hwf : r.wf = true)
    (hin : StaysInRange r i s t) : t.Within r := by
  obtain ⟨hparams, hstored, hpc, hrb⟩ := hin
  obtain ⟨hinq, houtq⟩ := he.queues
  refine ⟨hpc, hrb, ?_, fun v hv => hs.inputs v (hinq ▸ List.mem_append_right _ hv), ?_⟩
  · rcases he.mem_cases with ⟨-, hmem⟩ | ⟨a, v, hav, hmem⟩
    · rw [hmem]
      exact hs.cells
    · obtain ⟨p, hp, rfl⟩ := storedCell_addr hav
      rw [hmem]
      exact Memory.write_within hs.cells (hparams p hp).2 (hstored _ v hav)
  · rw [houtq, List.forall_mem_append]
    exact ⟨hs.outputs, hs.emittedBy_inRange hwf i⟩

/-- An executed instruction keeps what the machine holds in the range: it stays there or raises. -/
theorem State.Within.after_execWithin {i : Instr} {s t : State} (hs : s.Within r) (hwf : r.wf = true)
    (h : execWithin r i s = .next t) : t.Within r := by
  obtain ⟨u, -, he⟩ := exec_next_effect i s
  by_cases hq : i.opcode = .inp ∧ s.inq = []
  · cases (execWithin_starve r hq.1 hq.2).symm.trans h
    exact hs.after_takeFault _
  · have hq' : i.opcode = .inp → s.inq ≠ [] := fun hi hnil => hq ⟨hi, hnil⟩
    by_cases hin : StaysInRange r i s u
    · cases (he.execWithin_of_stays hs hq' hin).symm.trans h
      exact he.within hs hwf hin
    · cases (he.execWithin_of_leaves hs hq' hin).symm.trans h
      exact hs.after_takeFault _

end

/-- Settles O54: a step raises, which changes FAULT alone, or executes an instruction under the range. -/
theorem everyStepStaysInTheRange : Obligations.EveryStepStaysInTheRange := by
  intro r s t hwf hs h
  obtain ⟨-, ⟨c, -, rfl⟩ | ⟨i, -, hexec⟩⟩ := stepWithin_cases h
  · exact hs.after_takeFault c
  · exact hs.after_execWithin hwf hexec

end Sys2Proof.Machine
end

section
/-!
PROOFS. The host (70_reset_and_hazards.md R183, R184): when an operation is allowed, what it does, and what every operation keeps.
-/

namespace Sys2Proof.Machine

/-- An operation is a move exactly where it is allowed, and then it does and answers `hostEffect`. -/
theorem hostApplyWithin_eq_some_iff {r : CellRange} {op : HostOp} {x : Session} {p : Session × Reply} :
    hostApplyWithin r op x = some p ↔ hostAllowed r op x = true ∧ hostEffect r op x = p := by
  unfold hostApplyWithin
  split <;> simp_all

theorem hostApply_of_allowed {op : HostOp} {x : Session} (h : hostAllowed Config.cellRange op x = true) :
    hostApply op x = some (hostEffect Config.cellRange op x) :=
  if_pos h

theorem hostEffect_popOutput_nil (r : CellRange) {x : Session} (hq : x.machine.outq = []) :
    hostEffect r .popOutput x = (x, .output none) := by
  simp only [hostEffect, hq]

theorem hostEffect_popOutput_cons (r : CellRange) {x : Session} {v : Int} {rest : List Int}
    (hq : x.machine.outq = v :: rest) :
    hostEffect r .popOutput x =
      ({ x with machine := { x.machine with outq := rest }, popped := x.popped ++ [v] }, .output (some v)) := by
  simp only [hostEffect, hq]

/-- Settles O46: on this hardware no integer is out of range, so what is left of the condition is the table of R184. -/
theorem hostOperationsAllowedExactlyWhen : Obligations.HostOperationsAllowedExactlyWhen := by
  intro op x
  have hiff : (∃ y reply, hostApply op x = some (y, reply)) ↔ hostAllowed Config.cellRange op x = true :=
    ⟨fun ⟨_, _, h⟩ => (hostApplyWithin_eq_some_iff.1 h).1, fun h => ⟨_, _, hostApply_of_allowed h⟩⟩
  rw [hiff]
  cases op <;> simp [hostAllowed]

/-! ### The effect of each operation on this hardware -/

section

variable {x : Session}

theorem hostApply_reset (image : List Int) : hostApply (.reset image) x = some (Session.fresh image, .done) :=
  hostApply_of_allowed (by simp [hostAllowed])

theorem hostApply_poke (a v : Int) (hr : x.machine.status = .running) (hstepped : x.stepped = false) :
    hostApply (.poke a v) x = some ({ x with machine := x.machine.writeMem a v }, .done) :=
  hostApply_of_allowed (by simp [hostAllowed, hr, hstepped])

theorem hostApply_pushInput (v : Int) (hr : x.machine.status = .running) :
    hostApply (.pushInput v) x = some ({ x with machine := x.machine.pushInput v }, .done) :=
  hostApply_of_allowed (by simp [hostAllowed, hr])

theorem hostApply_step (hr : x.machine.status = .running) :
    hostApply .step x = some ({ x with machine := run 1 x.machine, stepped := true }, .done) := by
  rw [hostApply_of_allowed (by simp [hostAllowed, hr]), hostEffect, stepOnce, runWithin_all]

theorem hostApply_run (n : Nat) (hr : x.machine.status = .running) :
    hostApply (.run n) x =
      some ({ x with machine := run n x.machine, stepped := x.stepped || decide (0 < n) }, .done) := by
  rw [hostApply_of_allowed (by simp [hostAllowed, hr]), hostEffect, runWithin_all]

theorem hostApply_popOutput_nil (hq : x.machine.outq = []) : hostApply .popOutput x = some (x, .output none) := by
  rw [hostApply_of_allowed rfl, hostEffect_popOutput_nil _ hq]

theorem hostApply_popOutput_cons {v : Int} {rest : List Int} (hq : x.machine.outq = v :: rest) :
    hostApply .popOutput x =
      some ({ x with machine := { x.machine with outq := rest }, popped := x.popped ++ [v] }, .output (some v)) := by
  rw [hostApply_of_allowed rfl, hostEffect_popOutput_cons _ hq]

end

/-- Settles O47: the lemmas `hostApply_<operation>`, one for each operation. -/
theorem hostOperationEffects : Obligations.HostOperationEffects := by
  refine fun x => ⟨fun _ => hostApply_reset _, fun a v hr hstepped => ?_, fun v hr => hostApply_pushInput v hr,
    fun t h => ?_, fun n hr => ⟨_, hostApply_run (n + 1) hr, rfl, by simp, rfl⟩, hostApply_popOutput_nil,
    fun v rest => hostApply_popOutput_cons, fun a => hostApply_of_allowed rfl, hostApply_of_allowed rfl⟩
  · rw [hostApply_poke a v hr hstepped, hstepped]
    rfl
  · rw [hostApply_step (step_effect h).1, run_one_of_step h]

/-! ### The boot order -/

theorem hostApplyAll_cons {op : HostOp} {x y : Session} {reply : Reply} (h : hostApply op x = some (y, reply))
    (ops : List HostOp) : hostApplyAll (op :: ops) x = hostApplyAll ops y := by
  rw [hostApplyAll, h]

/-- Patches before the first step are all allowed and leave the machine RUNNING with the cells written. -/
theorem hostApplyAll_pokes (patches : List (Int × Int)) (ops : List HostOp) {s : State} {popped : List Int}
    (hr : s.status = .running) :
    hostApplyAll (patches.map (fun c => HostOp.poke c.1 c.2) ++ ops) ⟨s, false, popped⟩ =
      hostApplyAll ops ⟨{ s with mem := patches.foldl (fun m c => m.write c.1 c.2) s.mem }, false, popped⟩ := by
  induction patches generalizing s with
  | nil => rfl
  | cons c rest ih =>
    rw [List.map_cons, List.cons_append, hostApplyAll_cons (hostApply_poke c.1 c.2 hr rfl)]
    exact ih (s := s.writeMem c.1 c.2) hr

/-- Inputs pushed one after another are queued in that order. -/
theorem hostApplyAll_pushInputs (inputs : List Int) {x : Session} (hr : x.machine.status = .running) :
    hostApplyAll (inputs.map HostOp.pushInput) x =
      some { x with machine := { x.machine with inq := x.machine.inq ++ inputs } } := by
  induction inputs generalizing x with
  | nil => simp [hostApplyAll]
  | cons v rest ih =>
    rw [List.map_cons, hostApplyAll_cons (hostApply_pushInput v hr),
      ih (x := { x with machine := x.machine.pushInput v }) hr]
    simp [State.pushInput]

/-- Settles O48: RESET, then `hostApplyAll_pokes`, then `hostApplyAll_pushInputs`. -/
theorem bootSequenceLeavesPatchedImageAndQueuedInput : Obligations.BootSequenceLeavesPatchedImageAndQueuedInput := by
  intro x image patches inputs
  rw [hostApplyAll_cons (hostApply_reset image), Session.fresh, hostApplyAll_pokes _ _ (State.resetWith_status image),
    hostApplyAll_pushInputs inputs (State.resetWith_status image)]
  rfl

/-! ### What every operation keeps -/

/-- What every step keeps, every run keeps. -/
theorem runBy_keeps {P : State → Prop} {stepOf : State → StepOutcome} (hstep : ∀ s t, P s → stepOf s = .next t → P t)
    (n : Nat) {s : State} (hs : P s) : P (runBy stepOf n s) := by
  induction n generalizing s with
  | zero => exact hs
  | succ n ih =>
    unfold runBy
    split
    · rename_i t ht
      exact ih (hstep s t hs ht)
    · exact hs
    · exact hs

/-- Every host operation keeps what RESET, the three writes of the host and every step keep: the one case split over
the host's moves. -/
theorem hostApplyWithin_keeps {P : State → Prop} {r : CellRange} {op : HostOp} {x y : Session} {reply : Reply}
    (hreset : ∀ image, hostAllowed r (.reset image) x = true → P (State.resetWith image))
    (hpoke : ∀ a v, x.machine.status = .running → inRange r a = true → inRange r v = true → P (x.machine.writeMem a v))
    (hpush : ∀ v, x.machine.status = .running → inRange r v = true → P (x.machine.pushInput v))
    (hpop : ∀ v rest, x.machine.outq = v :: rest → P { x.machine with outq := rest })
    (hstep : ∀ s t, P s → stepWithin r s = .next t → P t)
    (hx : P x.machine) (h : hostApplyWithin r op x = some (y, reply)) : P y.machine := by
  obtain ⟨hallowed, heffect⟩ := hostApplyWithin_eq_some_iff.1 h
  cases op with
  | reset image =>
    cases heffect
    exact hreset image hallowed
  | poke a v =>
    cases heffect
    simp only [hostAllowed, Bool.and_eq_true, beq_iff_eq] at hallowed
    obtain ⟨⟨⟨hr, -⟩, ha⟩, hv⟩ := hallowed
    exact hpoke a v hr ha hv
  | pushInput v =>
    cases heffect
    simp only [hostAllowed, Bool.and_eq_true, beq_iff_eq] at hallowed
    exact hpush v hallowed.1 hallowed.2
  | step =>
    cases heffect
    exact runBy_keeps hstep 1 hx
  | run n =>
    cases heffect
    exact runBy_keeps hstep n hx
  | popOutput =>
    cases hq : x.machine.outq with
    | nil =>
      cases (hostEffect_popOutput_nil r hq).symm.trans heffect
      exact hx
    | cons v rest =>
      cases (hostEffect_popOutput_cons r hq).symm.trans heffect
      exact hpop v rest hq
  | peek | readStatus =>
    cases heffect
    exact hx

/-- Settles O45: RESET and the host's writes leave a RUNNING machine with memory in canonical form; POP_OUTPUT touches nothing
the invariant speaks of; and every step keeps it (O44). -/
theorem everyHostOperationKeepsTheInvariant : Obligations.EveryHostOperationKeepsTheInvariant := by
  intro op x y reply hx h
  refine hostApplyWithin_keeps (P := State.Inv) (fun image _ => resetMeetsTheInvariant.2 image)
    (fun a v hr _ _ => State.inv_of_running (s := x.machine.writeMem a v) hr (Memory.write_wf hx.memory a v))
    (fun v hr _ => State.inv_of_running (s := x.machine.pushInput v) hr hx.memory)
    (fun _ _ _ => ⟨hx.memory, hx.oneEnd, hx.haltWord, hx.record⟩) (fun s t hs hst => ?_) hx h
  rw [stepWithin_all] at hst
  exact everyStepKeepsTheInvariant s t hs hst

/-- The entries of a memory after a list is loaded at a are entries there before and entries of the list from a on. -/
theorem Memory.loadAt_mem {m : Memory} {a : Int} {vs : List Int} {c : MemCell} (h : c ∈ (m.loadAt a vs).cells) :
    c ∈ m.cells ∨ (a ≤ c.1 ∧ c.1 < a + vs.length ∧ c.2 ∈ vs) := by
  induction vs generalizing m a with
  | nil => exact .inl h
  | cons v rest ih =>
    rw [List.length_cons]
    rcases ih h with hmem | ⟨hlo, hhi, hval⟩
    · rcases Memory.write_mem hmem with rfl | hmem
      · exact .inr ⟨le_rfl, by simp only; omega, List.mem_cons_self⟩
      · exact .inl hmem
    · exact .inr ⟨by omega, by omega, List.mem_cons_of_mem v hval⟩

/-- A range has no gaps. -/
theorem inRange_of_between {r : CellRange} {a b c : Int} (ha : inRange r a = true) (hc : inRange r c = true)
    (hab : a ≤ b) (hbc : b ≤ c) : inRange r b = true := by
  cases r with
  | all => rfl
  | between lo hi =>
    simp only [inRange, Bool.and_eq_true, decide_eq_true_eq] at *
    omega

/-- The reset state of an image that RESET is allowed lies within the range (log entry 8). -/
theorem State.resetWith_within {r : CellRange} {image : List Int} {x : Session} (hwf : r.wf = true)
    (h : hostAllowed r (.reset image) x = true) : (State.resetWith image).Within r := by
  have hzero : inRange r 0 = true := CellRange.zero_inRange hwf
  simp only [hostAllowed, Bool.and_eq_true, Bool.or_eq_true, List.all_eq_true, List.isEmpty_iff] at h
  obtain ⟨hvalues, hlast⟩ := h
  refine ⟨hzero, hzero, fun c hc => ?_, fun v hv => (nomatch hv), fun v hv => (nomatch hv)⟩
  obtain hnil | ⟨hlo, hhi, hval⟩ := Memory.loadAt_mem hc
  · nomatch hnil
  · rcases hlast with rfl | hlast
    · nomatch hval
    · exact ⟨inRange_of_between hzero hlast hlo (by omega), hvalues c.2 hval⟩

/-- Settles O55: what the host supplies lies in the range, and every step keeps what the machine holds there (O54). -/
theorem everyHostOperationStaysInTheRange : Obligations.EveryHostOperationStaysInTheRange := by
  intro r op x y reply hwf hx h
  refine hostApplyWithin_keeps (P := State.Within r) (fun image himage => State.resetWith_within hwf himage)
    (fun a v _ ha hv => ⟨hx.pc, hx.rb, Memory.write_within hx.cells ha hv, hx.inputs, hx.outputs⟩)
    (fun v _ hv => ⟨hx.pc, hx.rb, hx.cells, ?_, hx.outputs⟩)
    (fun v rest hq => ⟨hx.pc, hx.rb, hx.cells, hx.inputs, fun w hw => hx.outputs w (hq ▸ List.mem_cons_of_mem v hw)⟩)
    (fun s t hs hst => everyStepStaysInTheRange r s t hwf hs hst) hx h
  rw [State.pushInput_inq, List.forall_mem_append]
  exact ⟨hx.inputs, by simpa using hv⟩

/-! ### The output history -/

/-- What the result of a run takes from OUTQ is the output history alone (70_reset_and_hazards.md R185). -/
theorem runResult_of_same_outputs {x y : Session} {q : List Int} (hmachine : y.machine = { x.machine with outq := q })
    (hout : y.outputs = x.outputs) : runResult y = runResult x := by
  unfold runResult
  rw [hout, hmachine]
  rfl

/-- Settles O49: a run appends what its OUT instructions emit (O33), POP_OUTPUT moves the head of OUTQ to what was popped, and
outside RUNNING no operation but RESET and POP_OUTPUT does anything. -/
theorem outputHistoryOnlyGrows : Obligations.OutputHistoryOnlyGrows := by
  intro op x y reply h hreset
  have ended {result : RunResult} (hresult : runResult x = some result) : x.machine.status ≠ .running := by
    intro hr
    simp [runResult, hr] at hresult
  have grows (n : Nat) : x.outputs <+: x.popped ++ (run n x.machine).outq :=
    ⟨outputHistory n x.machine, by rw [Session.outputs, (queuesAreFirstInFirstOut n x.machine).2, List.append_assoc]⟩
  have hrunning := (hostOperationsAllowedExactlyWhen op x).1 ⟨y, reply, h⟩
  cases op with
  | reset image => exact absurd rfl (hreset image)
  | poke a v =>
    cases (hostApply_poke a v hrunning.1 hrunning.2).symm.trans h
    exact ⟨List.prefix_rfl, nofun, fun _ hresult => absurd hrunning.1 (ended hresult)⟩
  | pushInput v =>
    cases (hostApply_pushInput v hrunning).symm.trans h
    exact ⟨List.prefix_rfl, nofun, fun _ hresult => absurd hrunning (ended hresult)⟩
  | step =>
    cases (hostApply_step hrunning).symm.trans h
    exact ⟨grows 1, nofun, fun _ hresult => absurd hrunning (ended hresult)⟩
  | run n =>
    cases (hostApply_run n hrunning).symm.trans h
    exact ⟨grows n, nofun, fun _ hresult => absurd hrunning (ended hresult)⟩
  | popOutput =>
    cases hq : x.machine.outq with
    | nil =>
      cases (hostApply_popOutput_nil hq).symm.trans h
      exact ⟨List.prefix_rfl, fun _ => rfl, fun _ hresult => ⟨hresult, fun _ => rfl⟩⟩
    | cons v rest =>
      cases (hostApply_popOutput_cons hq).symm.trans h
      have hsame : x.popped ++ [v] ++ rest = x.outputs := by simp [Session.outputs, hq]
      exact ⟨hsame ▸ List.prefix_rfl, fun _ => hsame, fun _ hresult =>
        ⟨hresult ▸ runResult_of_same_outputs (x := x) (q := rest) rfl hsame, fun hne => absurd rfl hne⟩⟩
  | peek | readStatus =>
    cases (hostApply_of_allowed rfl).symm.trans h
    exact ⟨List.prefix_rfl, nofun, fun _ hresult => ⟨hresult, fun _ => rfl⟩⟩

end Sys2Proof.Machine
end

section
/-!
PROOFS. RUN_TO_IO (70_reset_and_hazards.md R189): what it answers where it returns, and that it returns behind exactly the steps
that give no reason to.
-/

namespace Sys2Proof.Machine

/-- Having reached u, RUN_TO_IO returns this reply and leaves t; `more` says that its bound admits another step. -/
def ReturnsAt (more : Prop) (u t : State) (reply : IoStop) : Prop :=
  match reply with
  | .needsInput => t = u ∧ wantsInput u
  | .producedOutput => more ∧ executesOut u ∧ t = run 1 u
  | .ended st => t = u ∧ u.status = st ∧ st ≠ .running
  | .outOfFuel => ¬ more ∧ t = u ∧ u.status = .running ∧ ¬ wantsInput u

section

variable {s t : State} {reply : IoStop} {more : Prop}

/-- OUT wants no input: the opcode fields differ. -/
theorem not_wantsInput_of_executesOut (h : executesOut s) : ¬ wantsInput s := by
  rintro ⟨-, -, -, h3, -⟩
  obtain ⟨-, m1, m2, m3, hd⟩ := h
  have h4 : s.mem.read s.pc % 100 = 4 := opcode_field_of_decode_ok hd
  omega

/-- In front of an instruction that wants input, and outside RUNNING, RUN_TO_IO returns with that reason, whatever its bound. -/
theorem returnsAt_of_ioPause {reason : IoStop} (h : ioPause s = some reason) :
    ReturnsAt more s t reply ↔ (s, reason) = (t, reply) := by
  rcases (ioPause_eq_some_iff s reason).1 h with ⟨rfl, hw⟩ | ⟨rfl, hr⟩
  · have hr : s.status = .running := hw.1
    have hout : ¬ executesOut s := fun ho => not_wantsInput_of_executesOut ho hw
    cases reply with
    | ended st => simp [ReturnsAt, hr, eq_comm]
    | needsInput | producedOutput | outOfFuel => simp [ReturnsAt, hout, hw, eq_comm]
  · have hw : ¬ wantsInput s := fun hw => hr hw.1
    have hout : ¬ executesOut s := fun ho => hr ho.1
    cases reply with
    | ended st =>
      have hne : s.status = st → st ≠ .running := fun hst => hst ▸ hr
      simpa [ReturnsAt, eq_comm] using fun _ => hne
    | needsInput | producedOutput | outOfFuel => simp [ReturnsAt, hout, hw, hr]

/-- Where a step is due and it is an OUT, RUN_TO_IO returns behind it. -/
theorem returnsAt_of_executesOut (hpause : ioPause s = none) (hout : executesOut s) :
    ReturnsAt True s t reply ↔ (run 1 s, IoStop.producedOutput) = (t, reply) := by
  obtain ⟨hr, hw⟩ := (ioPause_eq_none_iff s).1 hpause
  cases reply <;> simp [ReturnsAt, hout, hr, hw, eq_comm]

/-- Where a step is due that is no OUT, RUN_TO_IO goes on. -/
theorem not_returnsAt (hpause : ioPause s = none) (hout : ¬ executesOut s) : ¬ ReturnsAt True s t reply := by
  obtain ⟨hr, hw⟩ := (ioPause_eq_none_iff s).1 hpause
  cases reply <;> simp [ReturnsAt, hout, hr, hw, eq_comm]

/-- Where a step is due and the bound is reached, RUN_TO_IO is out of fuel. -/
theorem returnsAt_outOfFuel (hpause : ioPause s = none) :
    ReturnsAt False s t reply ↔ (s, IoStop.outOfFuel) = (t, reply) := by
  obtain ⟨hr, hw⟩ := (ioPause_eq_none_iff s).1 hpause
  cases reply <;> simp [ReturnsAt, hr, hw, eq_comm]

/-! ### The steps issued -/

theorem passesIo_zero (s : State) : passesIo 0 s := fun _ hj => absurd hj (Nat.not_lt_zero _)

/-- The first step is issued and is no reason to return, and then the next k are and are none. -/
theorem passesIo_succ_iff (k : Nat) : passesIo (k + 1) s ↔ (ioPause s = none ∧ ¬ executesOut s) ∧ passesIo k (run 1 s) := by
  rw [ioPause_eq_none_iff]
  constructor
  · intro h
    obtain ⟨hr, hw, hout⟩ := h 0 k.succ_pos
    exact ⟨⟨⟨hr, hw⟩, hout⟩, fun j hj => run_succ j s ▸ h (j + 1) (Nat.succ_lt_succ hj)⟩
  · rintro ⟨⟨⟨hr, hw⟩, hout⟩, h⟩ j hj
    cases j with
    | zero => exact ⟨hr, hw, hout⟩
    | succ j => exact (run_succ j s).symm ▸ h j (Nat.lt_of_succ_lt_succ hj)

/-- A state RUN_TO_IO reaches and returns from is the one it starts in, or one behind a step that is no reason to return. -/
theorem exists_returnsAt_succ_iff (n : Nat) :
    (∃ k ≤ n + 1, passesIo k s ∧ ReturnsAt (k < n + 1) (run k s) t reply) ↔
      ReturnsAt True s t reply ∨ (ioPause s = none ∧ ¬ executesOut s) ∧
        ∃ k ≤ n, passesIo k (run 1 s) ∧ ReturnsAt (k < n) (run k (run 1 s)) t reply := by
  constructor
  · rintro ⟨k, hk, hpass, hret⟩
    cases k with
    | zero => exact .inl (by simpa [run_zero] using hret)
    | succ k =>
      obtain ⟨hgo, hpass⟩ := (passesIo_succ_iff k).1 hpass
      exact .inr ⟨hgo, k, Nat.le_of_succ_le_succ hk, hpass, by simpa [← run_succ] using hret⟩
  · rintro (hret | ⟨hgo, k, hk, hpass, hret⟩)
    · exact ⟨0, Nat.zero_le _, passesIo_zero s, by simpa [run_zero] using hret⟩
    · exact ⟨k + 1, Nat.succ_le_succ hk, (passesIo_succ_iff k).2 ⟨hgo, hpass⟩, by simpa [run_succ k s] using hret⟩

/-- RUN_TO_IO leaves t with this reply exactly where the steps before are no reason to return and it returns there. -/
theorem runToIo_eq_iff (n : Nat) :
    runToIo n s = (t, reply) ↔ ∃ k ≤ n, passesIo k s ∧ ReturnsAt (k < n) (run k s) t reply := by
  induction n generalizing s with
  | zero =>
    have hzero : (∃ k ≤ 0, passesIo k s ∧ ReturnsAt (k < 0) (run k s) t reply) ↔ ReturnsAt False s t reply := by
      simp [passesIo_zero, run_zero]
    rw [hzero, runToIo]
    cases hpause : ioPause s with
    | none => exact (returnsAt_outOfFuel hpause).symm
    | some reason => exact (returnsAt_of_ioPause hpause).symm
  | succ n ih =>
    rw [exists_returnsAt_succ_iff, ← ih, runToIo]
    cases hpause : ioPause s with
    | some reason => simp [returnsAt_of_ioPause hpause]
    | none =>
      by_cases hout : executesOut s
      · have hnext : nextOutput s ≠ [] := fun h => (nextOutput_eq_nil_iff s).1 h hout
        simp [returnsAt_of_executesOut hpause hout, hout, hnext]
      · simp [not_returnsAt hpause hout, hout, (nextOutput_eq_nil_iff s).2 hout]

/-! ### The output of the steps issued -/

/-- Steps that are no reason to return append nothing to OUTQ. -/
theorem outq_of_passesIo {k : Nat} (h : passesIo k s) : (run k s).outq = s.outq := by
  induction k generalizing s with
  | zero => rfl
  | succ k ih =>
    obtain ⟨⟨-, hout⟩, hpass⟩ := (passesIo_succ_iff k).1 h
    rw [run_succ, ih hpass, (run_one_queues s).2, (nextOutput_eq_nil_iff s).2 hout, List.append_nil]

/-- An OUT appends one entry. -/
theorem outq_of_executesOut (h : executesOut s) : ∃ v, (run 1 s).outq = s.outq ++ [v] := by
  obtain ⟨hr, m1, m2, m3, hd⟩ := h
  exact ⟨(resolve s 1 m1).value, by rw [(run_one_queues s).2, nextOutput_of_decode hr hd]; rfl⟩

/-- Where RUN_TO_IO answers producedOutput it returns behind an OUT, and otherwise where it is. -/
theorem outq_of_returnsAt (h : ReturnsAt more s t reply) :
    (reply = .producedOutput → ∃ v, t.outq = s.outq ++ [v]) ∧ (reply ≠ .producedOutput → t.outq = s.outq) := by
  cases reply with
  | producedOutput =>
    obtain ⟨-, hout, rfl⟩ := h
    exact ⟨fun _ => outq_of_executesOut hout, fun hne => absurd rfl hne⟩
  | needsInput | ended => exact ⟨nofun, fun _ => congrArg State.outq h.1⟩
  | outOfFuel => exact ⟨nofun, fun _ => congrArg State.outq h.2.1⟩

end

/-- Settles O50: `runToIo_eq_iff` with each reply's `ReturnsAt` written out; OUTQ by what the steps before and the last append. -/
theorem runToIoIssuesSteps : Obligations.RunToIoIssuesSteps := by
  intro n s t
  refine ⟨?_, ?_, fun st => ?_, ?_, fun reply h => ?_⟩
  · rw [runToIo_eq_iff]
    refine exists_congr fun k => and_congr_right fun _ => and_congr_right fun _ => and_congr_right ?_
    rintro rfl
    rfl
  · rw [runToIo_eq_iff]
    constructor
    · rintro ⟨k, -, hpass, hk, hout, ht⟩
      exact ⟨k, hk, hpass, hout, ht.trans (run_add k 1 s).symm⟩
    · rintro ⟨k, hk, hpass, hout, ht⟩
      exact ⟨k, hk.le, hpass, hk, hout, ht.trans (run_add k 1 s)⟩
  · rw [runToIo_eq_iff]
    refine exists_congr fun k => and_congr_right fun _ => and_congr_right fun _ => and_congr_right ?_
    rintro rfl
    rfl
  · rw [runToIo_eq_iff]
    constructor
    · rintro ⟨k, hle, hpass, hk, rfl, hend⟩
      obtain rfl : k = n := hle.antisymm (not_lt.1 hk)
      exact ⟨hpass, rfl, hend⟩
    · rintro ⟨hpass, rfl, hend⟩
      exact ⟨n, le_rfl, hpass, lt_irrefl n, rfl, hend⟩
  · obtain ⟨k, -, hpass, hret⟩ := (runToIo_eq_iff n).1 h
    rw [← outq_of_passesIo hpass]
    exact outq_of_returnsAt hret

end Sys2Proof.Machine
end
